-- ==== Sys2Proof/Word.lean ====
section
/-! DEFINITION. The word types of the block: the three number formats (spec 00 R2, R8), the table indexes and entries
(spec 10 R25), the request word (spec 30 R69), and the names of the five tables and the five operations. -/

namespace Sys2Proof

/-- A binary16 pattern, "an opaque transport value" (spec 10 R21). -/
abbrev Half := BitVec 16
/-- A binary32 pattern: the intermediate of both converters (spec 00 R2, 30 R62). -/
abbrev Single := BitVec 32
/-- A binary64 pattern: PACK's operand and UNPACK's result (spec 30 R63). -/
abbrev Double := BitVec 64

/-- Index of BASE_TABLE and SHIFT_TABLE (spec 10 R25). -/
abbrev Key := BitVec 9
/-- Index of OFFSET_TABLE and EXPONENT_TABLE (spec 10 R25). -/
abbrev ExpIdx := BitVec 6
/-- Index of MANTISSA_TABLE (spec 10 R25). -/
abbrev MantIdx := BitVec 11
/-- Entry of SHIFT_TABLE (spec 00 R9, 92 D6). -/
abbrev ShiftAmount := BitVec 5

/-- A request word `q`: `q[66:64]` the operation code, `q[63:0]` the operand field (spec 30 R69, R72). -/
abbrev ReqWord := BitVec 67

/-- The five tables (spec 10 R25, 90 C1). -/
inductive TableName where
  | base | shift | mantissa | offset | exponent
deriving DecidableEq, Repr

/-- The five operations (spec 30 R69). -/
inductive Mnemonic where
  | pack | unpack | lutBs | lutOe | lutM
deriving DecidableEq, Repr

end Sys2Proof
end

