-- ==== Sys2Proof/Syntax.lean ====
section
/-! DEFINITION. The operations of the block, one constructor per row of spec/opcode_table.json. -/

namespace Sys2Proof

/-- A transaction's request: an operation and its operand, "an unsigned bit vector of exactly the port width"
(spec 00 R13, 30 R69, R70). -/
inductive Instr where
  /-- PACK: binary64 to binary16 (spec 41 R110). -/
  | pack (x : Double)
  /-- UNPACK: binary16 to binary64 (spec 42 R130). -/
  | unpack (h : Half)
  /-- LUT.BS: read BASE_TABLE and SHIFT_TABLE (spec 40 R91). -/
  | lutBs (key : Key)
  /-- LUT.OE: read OFFSET_TABLE and EXPONENT_TABLE (spec 40 R92). -/
  | lutOe (idx : ExpIdx)
  /-- LUT.M: read MANTISSA_TABLE (spec 40 R93). -/
  | lutM (idx : MantIdx)
deriving DecidableEq, Repr

/-- The operation an instruction performs. -/
def Instr.mnemonic : Instr → Mnemonic
  | .pack _ => .pack
  | .unpack _ => .unpack
  | .lutBs _ => .lutBs
  | .lutOe _ => .lutOe
  | .lutM _ => .lutM

/-- The width of an operation's operand, which is the width of its port (spec 30 R69, R70). -/
def Mnemonic.operandWidth : Mnemonic → Nat
  | .pack => 64
  | .unpack => 16
  | .lutBs => 9
  | .lutOe => 6
  | .lutM => 11

end Sys2Proof
end

