-- ==== Sys2Proof/WellFormed.lean ====
section
/-! DEFINITION. Which request words are admitted (spec 30 R69 to R71). An `Instr` carries each operand at exactly its
port's width, so no ill-formed `Instr` can be written; what can be ill-formed is the request word, and each check of
spec 30 R71 stands here on its own. -/

namespace Sys2Proof

/-- The 3-bit operation code `q[66:64]` (spec 30 R69). -/
def opField (q : ReqWord) : BitVec 3 := q.extractLsb' 64 3

/-- The operand field `q[63:0]` (spec 30 R69). -/
def operandField (q : ReqWord) : BitVec 64 := q.extractLsb' 0 64

/-- The operation an operation code names; 101, 110 and 111 name none (spec 30 R69). -/
def Mnemonic.ofOp (op : BitVec 3) : Option Mnemonic :=
  if op = 0b000#3 then some .pack
  else if op = 0b001#3 then some .unpack
  else if op = 0b010#3 then some .lutBs
  else if op = 0b011#3 then some .lutOe
  else if op = 0b100#3 then some .lutM
  else none

/-- The operation code is not a reserved one (spec 30 R71, first case). -/
def opAssigned (q : ReqWord) : Bool := (Mnemonic.ofOp (opField q)).isSome

/-- No bit above a `w`-bit operand is 1 (spec 30 R70, R71, second case). -/
def operandFits (w : Nat) (operand : BitVec 64) : Bool := operand >>> w == 0#64

/-- The request word is admitted: neither case of spec 30 R71 refuses it. -/
def wordAdmitted (q : ReqWord) : Bool :=
  match Mnemonic.ofOp (opField q) with
  | some m => operandFits m.operandWidth (operandField q)
  | none => false

/-- An instruction's operand, zero-extended to the operand field (spec 30 R70). -/
def Instr.operand : Instr → BitVec 64
  | .pack x => x
  | .unpack h => h.setWidth 64
  | .lutBs key => key.setWidth 64
  | .lutOe idx => idx.setWidth 64
  | .lutM idx => idx.setWidth 64

/-- The instruction's operand lies in its field: by the widths of `Instr` this holds of every instruction. -/
def Instr.wellFormed (i : Instr) : Bool := operandFits i.mnemonic.operandWidth i.operand

end Sys2Proof
end

