-- ==== Sys2Proof/Decode.lean ====
section
/-! DEFINITION. The decoder of request words and the encoder, from spec 30 R69 to R72 and spec/opcode_table.json. -/

namespace Sys2Proof

/-- Why the decoder refuses a request word (spec 30 R71). -/
inductive DecodeError where
  /-- `op` is 101, 110 or 111 -/
  | reservedOp
  /-- a bit above the operand field is 1 -/
  | reservedOperandBits
deriving DecidableEq, Repr

/-- The instruction of an operation and an operand field whose unused bits are 0 (spec 30 R69). -/
def Instr.ofParts (m : Mnemonic) (operand : BitVec 64) : Instr :=
  match m with
  | .pack => .pack operand
  | .unpack => .unpack (operand.setWidth 16)
  | .lutBs => .lutBs (operand.setWidth 9)
  | .lutOe => .lutOe (operand.setWidth 6)
  | .lutM => .lutM (operand.setWidth 11)

/-- The decoder: "A decoder reads `op` and then its operand field" (spec 30 R72); it refuses as spec 30 R71 says. -/
def decode (q : ReqWord) : Except DecodeError Instr :=
  match Mnemonic.ofOp (opField q) with
  | none => .error .reservedOp
  | some m =>
    if operandFits m.operandWidth (operandField q) then .ok (Instr.ofParts m (operandField q))
    else .error .reservedOperandBits

/-- The operation code of an operation (spec 30 R69). -/
def Mnemonic.op : Mnemonic → BitVec 3
  | .pack => 0b000#3
  | .unpack => 0b001#3
  | .lutBs => 0b010#3
  | .lutOe => 0b011#3
  | .lutM => 0b100#3

/-- A request word from its two fields: `op` in bits 66..64, the operand field in bits 63..0 (spec 30 R69). -/
def wordOf (op : BitVec 3) (operand : BitVec 64) : ReqWord := op ++ operand

/-- The encoder: the request word of an instruction (spec 30 R69, R70). -/
def encode (i : Instr) : ReqWord := wordOf i.mnemonic.op i.operand

/-- One row of spec/opcode_table.json: a word is the row's when `q & mask = matchBits`. -/
structure OpcodeRow where
  mnemonic  : Mnemonic
  mask      : ReqWord
  matchBits : ReqWord
deriving DecidableEq, Repr

/-- The rows of spec/opcode_table.json, its masks and matches as they stand there. -/
def opcodeRows : List OpcodeRow :=
  [ ⟨.pack,   0x70000000000000000#67, 0x00000000000000000#67⟩,
    ⟨.unpack, 0x7FFFFFFFFFFFF0000#67, 0x10000000000000000#67⟩,
    ⟨.lutBs,  0x7FFFFFFFFFFFFFE00#67, 0x20000000000000000#67⟩,
    ⟨.lutOe,  0x7FFFFFFFFFFFFFFC0#67, 0x30000000000000000#67⟩,
    ⟨.lutM,   0x7FFFFFFFFFFFFF800#67, 0x40000000000000000#67⟩ ]

/-- The word belongs to the row. -/
def OpcodeRow.hits (r : OpcodeRow) (q : ReqWord) : Bool := q &&& r.mask == r.matchBits

/-- No word belongs to both rows: somewhere both masks look at a bit and ask different values of it. -/
def OpcodeRow.disjoint (r t : OpcodeRow) : Bool := (r.mask &&& t.mask) &&& (r.matchBits ^^^ t.matchBits) != 0#67

/-- The request word whose bits are the low `nbits` of `w`, numbered as spec/opcode_table.json numbers them. A request
word is exactly 67 bits (spec 30 R72), so a number with a bit above 66 is none. -/
def tableWord (nbits w : Nat) : Option ReqWord :=
  let v := w % 2 ^ nbits
  if v < 2 ^ 67 then some (BitVec.ofNat 67 v) else none

/-- The instruction the decoder reads from an instruction whose bits are `w`, numbered as the opcode table numbers
them; none where it refuses. -/
def decodeTableWord (nbits w : Nat) : Option Instr :=
  match tableWord nbits w with
  | none => none
  | some q =>
    match decode q with
    | .ok i => some i
    | .error _ => none

end Sys2Proof
end

