-- ==== Sys2Proof/Config.lean ====
section
/-! DEFINITION. The build-time parameters of spec 00 R9 with their defaults, and the one free value of the model:
what an unfilled table holds under `P_TABLE_IMPL = INIT` (spec 70 R172). -/

namespace Sys2Proof

/-- `P_NARROW_RND` (spec 00 R9, 92 D2). -/
inductive NarrowRnd where
  /-- round to nearest, ties to even -/
  | rne
  /-- round toward zero -/
  | rtz
deriving DecidableEq, Repr

/-- `P_TABLE_IMPL` (spec 00 R9, 92 D4). -/
inductive TableImpl where
  /-- the tables are constant from power-up (spec 70 R171) -/
  | rom
  /-- the tables are filled after reset (spec 70 R172) -/
  | init
deriving DecidableEq, Repr

/-- The parameters of spec 00 R9: fixed when the hardware is built (spec 10 R24). -/
structure Config where
  /-- `P_NARROW_RND` -/
  narrowRnd : NarrowRnd
  /-- `P_NAN_QUIET` -/
  nanQuiet  : Bool
  /-- `P_TABLE_IMPL` -/
  tableImpl : TableImpl
  /-- `P_LATENCY` in clock cycles: timing only, "the model has no time" (spec 70 R177; log entry 5) -/
  latency   : Nat
deriving DecidableEq, Repr

/-- The defaults of spec 00 R9. -/
def Config.default : Config where
  narrowRnd := .rne
  nanQuiet  := true
  tableImpl := .rom
  latency   := 0

/-- FREE VALUE (log entry 12; DESIGN CHOICE of form, spec 70 R172: "the table contents become unspecified"): the word
that entry `i` of table `t` holds after the `draw`-th time the contents became unspecified.
It has no body, so nothing can be proved of its value. -/
opaque Config.unfilledEntry (draw : Nat) (t : TableName) (i : Nat) : BitVec 32

end Sys2Proof
end

