-- ==== Sys2Proof/Machine/Tables.lean ====
section
/-! DEFINITION. The contents of the five tables as functions of the index (spec 40 R81 to R89). -/

namespace Sys2Proof.Machine

/-- `BASE[idx]` for a raw binary32 exponent `idx` in 0..255, with `e = idx - 127` (spec 40 R81). -/
def basePositive (idx : Nat) : BitVec 16 :=
  let e : Int := (idx : Int) - 127
  if e < -24 then 0x0000#16
  else if e < -14 then 0x0400#16 >>> (-e - 14).toNat
  else if e ≤ 15 then BitVec.ofNat 16 ((e + 15).toNat <<< 10)
  else 0x7C00#16

/-- `SHIFT[idx]` for a raw binary32 exponent `idx` in 0..255, with `e = idx - 127` (spec 40 R81). -/
def shiftPositive (idx : Nat) : ShiftAmount :=
  let e : Int := (idx : Int) - 127
  if e < -24 then 24#5
  else if e < -14 then BitVec.ofNat 5 (-e - 1).toNat
  else if e ≤ 15 then 13#5
  else if e < 128 then 24#5
  else 13#5

/-- BASE_TABLE: `BASE[idx | 0x100] = BASE[idx] | 0x8000` (spec 40 R81, R82). -/
def baseContents (i : Nat) : BitVec 16 :=
  if i < 0x100 then basePositive i else basePositive (i - 0x100) ||| 0x8000#16

/-- SHIFT_TABLE: `SHIFT[idx | 0x100] = SHIFT[idx]` (spec 40 R81, R82). -/
def shiftContents (i : Nat) : ShiftAmount :=
  if i < 0x100 then shiftPositive i else shiftPositive (i - 0x100)

/-- The loop of spec 40 R85, with `fuel` passes at most: "The loop ends ... after at most 10 passes". -/
def renormLoop : Nat → Nat → Int → Nat × Int
  | 0, m, acc => (m, acc)
  | fuel + 1, m, acc =>
    if m &&& 0x00800000 = 0 then renormLoop fuel (m <<< 1) (acc - 0x00800000) else (m, acc)

/-- `renorm(i)` for i in 1..1023 (spec 40 R85). -/
def renorm (i : Nat) : BitVec 32 :=
  let r := renormLoop 10 (i <<< 13) 0
  (BitVec.ofNat 32 r.1 &&& ~~~0x00800000#32) ||| BitVec.ofInt 32 (r.2 + 0x38800000)

/-- MANTISSA_TABLE (spec 40 R84, R85, R87; entries 1023 and 2047 as spec 90 C2 settles them). -/
def mantissaContents (i : Nat) : BitVec 32 :=
  if i = 0 then 0x00000000#32
  else if i < 1024 then renorm i
  else 0x38000000#32 + BitVec.ofNat 32 ((i - 1024) <<< 13)

/-- EXPONENT_TABLE (spec 40 R88). -/
def exponentContents (i : Nat) : BitVec 32 :=
  if i = 0 then 0x00000000#32
  else if i ≤ 30 then BitVec.ofNat 32 (i <<< 23)
  else if i = 31 then 0x47800000#32
  else if i = 32 then 0x80000000#32
  else if i ≤ 62 then 0x80000000#32 + BitVec.ofNat 32 ((i - 32) <<< 23)
  else 0xC7800000#32

/-- OFFSET_TABLE (spec 40 R89). -/
def offsetContents (i : Nat) : BitVec 16 :=
  if i = 0 then 0#16 else if i = 32 then 0#16 else 1024#16

/-- How many entries each table has (spec 10 R25, 40 R90). -/
def tableSize : TableName → Nat
  | .base => 512
  | .shift => 512
  | .mantissa => 2048
  | .offset => 64
  | .exponent => 64

/-- How wide each table's entries are (spec 10 R25). -/
def tableWidth : TableName → Nat
  | .base => 16
  | .shift => 5
  | .mantissa => 32
  | .offset => 16
  | .exponent => 32

/-! ### Table memory

A table is held as the list of its entries that differ from the contents above (log entry 17). -/

/-- The listed entries of one table: (index, entry) pairs. -/
abbrev TableMem (w : Nat) := List (Nat × BitVec w)

/-- The canonical form: indexes strictly rising and below the table's size, no entry equal to what an unlisted index
reads as. -/
def TableMem.wf {w : Nat} (size : Nat) (contents : Nat → BitVec w) (m : TableMem w) : Bool :=
  (m.map Prod.fst).Pairwise (· < ·) && m.all (fun p => decide (p.1 < size) && p.2 != contents p.1)

/-- One whole entry (spec 20 R40, R45): an unlisted index reads as the contents of spec 40. -/
def TableMem.read {w : Nat} (contents : Nat → BitVec w) : TableMem w → Nat → BitVec w
  | [], i => contents i
  | (k, v) :: m, i => if i = k then v else TableMem.read contents m i

/-- The fill's write of entry `i` with its contents (spec 70 R172). In the canonical form that takes the entry off the
list. -/
def TableMem.fill {w : Nat} (i : Nat) (m : TableMem w) : TableMem w := m.filter (fun p => p.1 != i)

/-- A table of `size` entries whose entry `i` is `f i`, in canonical form. -/
def TableMem.ofEntries {w : Nat} (size : Nat) (contents f : Nat → BitVec w) : TableMem w :=
  (List.range size).filterMap (fun i => if f i = contents i then none else some (i, f i))

end Sys2Proof.Machine
end

