-- ==== Sys2Proof/Machine/State.lean ====
section
/-! DEFINITION. What the machine holds (INVENTORY.md, State), why a step can stop, and the machine after reset. -/

namespace Sys2Proof.Machine

/-- The five tables of `fp_format_xlator_lookup` (spec 10 R25). -/
structure Tables where
  /-- BASE_TABLE, 512 entries of 16 bits -/
  base     : TableMem 16
  /-- SHIFT_TABLE, 512 entries of 5 bits -/
  shift    : TableMem 5
  /-- MANTISSA_TABLE, 2048 entries of 32 bits -/
  mantissa : TableMem 32
  /-- OFFSET_TABLE, 64 entries of 16 bits -/
  offset   : TableMem 16
  /-- EXPONENT_TABLE, 64 entries of 32 bits -/
  exponent : TableMem 32
deriving DecidableEq, Repr

/-- The five tables holding the contents of spec 40 R81 to R89: nothing differs from them. -/
def Tables.filled : Tables := ⟨[], [], [], [], []⟩

/-- Each table is in its canonical form. -/
def Tables.wf (t : Tables) : Bool :=
  t.base.wf (tableSize .base) baseContents && t.shift.wf (tableSize .shift) shiftContents
    && t.mantissa.wf (tableSize .mantissa) mantissaContents && t.offset.wf (tableSize .offset) offsetContents
    && t.exponent.wf (tableSize .exponent) exponentContents

/-- The unspecified contents of spec 70 R172: every entry a free value (log entry 12). -/
def Tables.unfilled (draw : Nat) : Tables where
  base     := .ofEntries (tableSize .base) baseContents fun i => (Config.unfilledEntry draw .base i).setWidth 16
  shift    := .ofEntries (tableSize .shift) shiftContents fun i => (Config.unfilledEntry draw .shift i).setWidth 5
  mantissa := .ofEntries (tableSize .mantissa) mantissaContents fun i => Config.unfilledEntry draw .mantissa i
  offset   := .ofEntries (tableSize .offset) offsetContents fun i => (Config.unfilledEntry draw .offset i).setWidth 16
  exponent := .ofEntries (tableSize .exponent) exponentContents fun i => Config.unfilledEntry draw .exponent i

/-- The values standing on the input ports (spec 10 R26): none where nobody has driven the port yet, since "A model has
no value for an input bit that is undriven" (spec 10 R27; log entry 8). -/
structure Ports where
  /-- `pk_x`, 64 bits, of float16_pack_converter -/
  pkX   : Option Double
  /-- `up_h`, 16 bits, of float16_unpack_converter -/
  upH   : Option Half
  /-- `bs_key`, 9 bits, of fp_format_xlator_lookup -/
  bsKey : Option Key
  /-- `oe_idx`, 6 bits, of fp_format_xlator_lookup -/
  oeIdx : Option ExpIdx
  /-- `m_idx`, 11 bits, of fp_format_xlator_lookup -/
  mIdx  : Option MantIdx
deriving DecidableEq, Repr

/-- A request as its user presents it: the request word, and which operand lines carry no value (a 1 in `undriven`;
spec 10 R27, 95 V-EN-9; log entry 10). -/
structure Request where
  word     : ReqWord
  undriven : BitVec 64
deriving DecidableEq, Repr

/-- What the outside does to the block: it presents a request, or pulls the reset input of the INIT form (spec 70
R170, R172). -/
inductive Input where
  | request (r : Request)
  | rst
deriving DecidableEq, Repr

/-- The response of a transaction (spec 30 R69). -/
inductive Response where
  /-- `pk_h` -/
  | pack (h : Half)
  /-- `up_x` -/
  | unpack (x : Double)
  /-- `bs_base` and `bs_shift` -/
  | lutBs (base : BitVec 16) (shift : ShiftAmount)
  /-- `oe_offset` and `oe_exp` -/
  | lutOe (offset : BitVec 16) (exp : BitVec 32)
  /-- `m_val` -/
  | lutM (val : BitVec 32)
deriving DecidableEq, Repr

/-- The state of the machine. -/
structure State where
  /-- the build-time parameters (spec 00 R9); no step changes them (spec 10 R24; log entry 1) -/
  cfg         : Config
  /-- the five tables (spec 10 R25) -/
  tables      : Tables
  /-- `tables_ready`, of the INIT form only (spec 10 R28; log entry 16) -/
  tablesReady : Bool
  /-- the fill process of the INIT form has written every entry below this index (spec 70 R172; log entry 13) -/
  fillNext    : Nat
  /-- the model's own counter: how often unspecified table contents were drawn (log entry 12) -/
  freeDraws   : Nat
  /-- the input ports (spec 10 R26; log entry 8) -/
  ports       : Ports
  /-- the model's own: what the outside presents, oldest first (log entry 6) -/
  inputs      : List Input
  /-- the model's own: the responses given, oldest first (log entry 7) -/
  responses   : List Response
deriving DecidableEq, Repr

/-- Why the machine stops with a fault. -/
inductive Fault where
  /-- An operand bit is undriven or unknown (spec 10 R27). Raised by every operation, once the tables are valid. Safe:
  "it removes runs, it does not invent a value". -/
  | undrivenOperand
deriving DecidableEq, Repr

/-- Why a request is refused. -/
inductive Refusal where
  /-- `op` is 101, 110 or 111 (spec 30 R71). Raised by the step on a request word. Safe: the hardware has no such
  request. -/
  | reservedOp
  /-- A bit above the operand field is 1 (spec 30 R71). Raised by the step on a request word. Safe. -/
  | reservedOperandBits
  /-- The instruction has no meaning yet. Raised by an arm of `exec` that is rejected by name; no arm is. Safe. -/
  | notModelled (mnemonic : String)
deriving DecidableEq, Repr

/-- The machine of a given choice of parameters right after power-up and reset (spec 10 R29, 70 R170 to R172): under
ROM the tables hold their contents, under INIT they are unspecified and `tables_ready` is 0. -/
def State.resetOf (c : Config) : State where
  cfg         := c
  tables      := match c.tableImpl with
                 | .rom => Tables.filled
                 | .init => Tables.unfilled 0
  tablesReady := false
  fillNext    := 0
  freeDraws   := match c.tableImpl with
                 | .rom => 0
                 | .init => 1
  ports       := ⟨none, none, none, none, none⟩
  inputs      := []
  responses   := []

/-- The machine right after reset, with the default parameters of spec 00 R9. -/
def State.reset : State := State.resetOf Config.default

end Sys2Proof.Machine
end

