-- ==== Sys2Proof/Machine/Operands.lean ====
section
/-! DEFINITION. The operand of the presented request: which of its lines are driven (spec 10 R27). Every operand has
the one form of spec 30 R70, the field of the request word taken unchanged, which the decoder reads. -/

namespace Sys2Proof.Machine

/-- Which operand lines of the presented request carry no value; every line is driven where no request stands there. -/
def State.undriven (s : State) : BitVec 64 :=
  match s.inputs with
  | .request r :: _ => r.undriven
  | _ => 0#64

/-- Some bit of a `w`-bit operand is undriven. Lines above the operand's port do not exist (spec 30 R71: "its ports
have exactly the operand widths"; log entry 10). -/
def State.operandUndriven (s : State) (w : Nat) : Bool := s.undriven.setWidth w != 0#w

end Sys2Proof.Machine
end

