-- ==== Sys2Proof/Machine/Ops.lean ====
section
/-! DEFINITION. The operations the meanings share: reading a table, driving a port, giving a response, the hold and
the fill of the INIT form, reset, and a transaction's checks in their order (spec 60 R153). The block takes no
exception (spec 60 R150, R154), so no operation of taking one, or of returning, stands here. -/

namespace Sys2Proof.Machine

/-! ### Table reads (spec 20 R40: one whole entry) -/

/-- `BASE[key]`. -/
def Tables.readBase (t : Tables) (key : Key) : BitVec 16 := t.base.read baseContents key.toNat
/-- `SHIFT[key]`. -/
def Tables.readShift (t : Tables) (key : Key) : ShiftAmount := t.shift.read shiftContents key.toNat
/-- `MANTISSA[idx]`. -/
def Tables.readMantissa (t : Tables) (idx : MantIdx) : BitVec 32 := t.mantissa.read mantissaContents idx.toNat
/-- `OFFSET[idx]`. -/
def Tables.readOffset (t : Tables) (idx : ExpIdx) : BitVec 16 := t.offset.read offsetContents idx.toNat
/-- `EXPONENT[idx]`. -/
def Tables.readExponent (t : Tables) (idx : ExpIdx) : BitVec 32 := t.exponent.read exponentContents idx.toNat

/-! ### When the tables are valid, and the fill (spec 70 R171, R172) -/

/-- The tables may be read: always under ROM, once `tables_ready` is 1 under INIT (spec 70 R171, R172). -/
def State.tablesValid (s : State) : Bool :=
  match s.cfg.tableImpl with
  | .rom => true
  | .init => s.tablesReady

/-- How many indexes the fill goes through: the size of the largest table (log entry 13). -/
def fillLength : Nat := 2048

/-- The fill writes entry `i` of every table that has one. -/
def Tables.fillAt (t : Tables) (i : Nat) : Tables where
  base     := t.base.fill i
  shift    := t.shift.fill i
  mantissa := t.mantissa.fill i
  offset   := t.offset.fill i
  exponent := t.exponent.fill i

/-- One step of the fill process: it writes the next entries, and "After the last write it sets `tables_ready <- 1`"
(spec 70 R172). -/
def State.fillStep (s : State) : State :=
  if s.fillNext < fillLength then { s with tables := s.tables.fillAt s.fillNext, fillNext := s.fillNext + 1 }
  else { s with tablesReady := true }

/-- Nothing is presented: the outputs stand as they are, and an unfinished fill goes on (log entry 21). -/
def State.idle (s : State) : State := if s.tablesValid then s else s.fillStep

/-- The reset input is pulled. Under INIT "reset sets `tables_ready <- 0` and the table contents become unspecified"
(spec 70 R172), and the fill starts again; under ROM there is no such input and "reset does not change them" (spec 70
R170, R171). It changes no port (log entry 15). -/
def State.pullReset (s : State) : State :=
  match s.cfg.tableImpl with
  | .rom => { s with inputs := s.inputs.tail }
  | .init => { s with tables := Tables.unfilled s.freeDraws, tablesReady := false, fillNext := 0,
                      freeDraws := s.freeDraws + 1, inputs := s.inputs.tail }

/-! ### Ports and responses -/

/-- `pk_x <- x`. -/
def State.drivePkX (s : State) (x : Double) : State := { s with ports := { s.ports with pkX := some x } }
/-- `up_h <- h`. -/
def State.driveUpH (s : State) (h : Half) : State := { s with ports := { s.ports with upH := some h } }
/-- `bs_key <- key`. -/
def State.driveBsKey (s : State) (key : Key) : State := { s with ports := { s.ports with bsKey := some key } }
/-- `oe_idx <- idx`. -/
def State.driveOeIdx (s : State) (idx : ExpIdx) : State := { s with ports := { s.ports with oeIdx := some idx } }
/-- `m_idx <- idx`. -/
def State.driveMIdx (s : State) (idx : MantIdx) : State := { s with ports := { s.ports with mIdx := some idx } }

/-- The presented request gets its response and is done with (spec 00 R13; log entry 7). -/
def State.respond (s : State) (r : Response) : State :=
  { s with inputs := s.inputs.tail, responses := s.responses ++ [r] }

/-- A request is presented as the next one, all its lines driven, in place of what stands there. -/
def State.present (s : State) (q : ReqWord) : State := { s with inputs := .request ⟨q, 0#64⟩ :: s.inputs.tail }

/-! ### A transaction -/

/-- The checks of a decoded transaction in the order of spec 60 R153: the hold before `tables_ready` (the request stays
presented and the fill goes on; log entry 14), then an undriven bit of the `w`-bit operand, then the result `done`. -/
def State.transact (s : State) (w : Nat) (done : State) : Host.Outcome State Fault Refusal :=
  if s.tablesValid then
    if s.operandUndriven w then .fault .undrivenOperand else .next done
  else .next s.fillStep

/-- The refusal a decoding error stands for (spec 30 R71). -/
def refusalOf : DecodeError → Refusal
  | .reservedOp => .reservedOp
  | .reservedOperandBits => .reservedOperandBits

end Sys2Proof.Machine
end

