-- ==== Sys2Proof/Machine/Lut.lean ====
section
/-! DEFINITION. The table reads LUT.BS, LUT.OE and LUT.M, the operations of `fp_format_xlator_lookup` (spec 40 R91 to
R93), and that block's output ports. -/

namespace Sys2Proof.Machine

/-- The output port `bs_base` (spec 10 R26). -/
def State.bsBase (s : State) : Option (BitVec 16) := s.ports.bsKey.map s.tables.readBase
/-- The output port `bs_shift` (spec 10 R26). -/
def State.bsShift (s : State) : Option ShiftAmount := s.ports.bsKey.map s.tables.readShift
/-- The output port `oe_offset` (spec 10 R26). -/
def State.oeOffset (s : State) : Option (BitVec 16) := s.ports.oeIdx.map s.tables.readOffset
/-- The output port `oe_exp` (spec 10 R26). -/
def State.oeExp (s : State) : Option (BitVec 32) := s.ports.oeIdx.map s.tables.readExponent
/-- The output port `m_val` (spec 10 R26). -/
def State.mVal (s : State) : Option (BitVec 32) := s.ports.mIdx.map s.tables.readMantissa

/-- LUT.BS: `out.bs_base <- BASE[key]; out.bs_shift <- SHIFT[key]` (spec 40 R91). -/
def execLutBs (key : Key) (s : State) : Host.Outcome State Fault Refusal :=
  s.transact 9 ((s.driveBsKey key).respond (.lutBs (s.tables.readBase key) (s.tables.readShift key)))

/-- LUT.OE: `out.oe_offset <- OFFSET[idx]; out.oe_exp <- EXPONENT[idx]` (spec 40 R92). -/
def execLutOe (idx : ExpIdx) (s : State) : Host.Outcome State Fault Refusal :=
  s.transact 6 ((s.driveOeIdx idx).respond (.lutOe (s.tables.readOffset idx) (s.tables.readExponent idx)))

/-- LUT.M: `out.m_val <- MANTISSA[idx]` (spec 40 R93). -/
def execLutM (idx : MantIdx) (s : State) : Host.Outcome State Fault Refusal :=
  s.transact 11 ((s.driveMIdx idx).respond (.lutM (s.tables.readMantissa idx)))

end Sys2Proof.Machine
end

