-- ==== Sys2Proof/Machine/Formats.lean ====
section
/-! DEFINITION. The three number formats: their fields, their classes and the values they stand for (spec 30 R60 to
R63). The values and the class boundaries are general knowledge the spec takes in (spec 93 GK1, GK2, GK4; log
entry 20). The bit-level meanings of PACK and UNPACK use the fields only. -/

namespace Sys2Proof.Machine

/-! ### Fields -/

/-- `h[15]` (spec 30 R60). -/
def sign16 (h : Half) : BitVec 1 := h.extractLsb' 15 1
/-- `E16 = h[14:10]` (spec 30 R60). -/
def exp16 (h : Half) : BitVec 5 := h.extractLsb' 10 5
/-- `m16 = h[9:0]` (spec 30 R60), which is `mant_bits` of spec 30 R67. -/
def man16 (h : Half) : BitVec 10 := h.extractLsb' 0 10
/-- `exp_idx = h[15:10]`, the index into OFFSET_TABLE and EXPONENT_TABLE (spec 30 R66). -/
def expIdxOf (h : Half) : ExpIdx := h.extractLsb' 10 6

/-- `b[31]` (spec 30 R62). -/
def sign32 (b : Single) : BitVec 1 := b.extractLsb' 31 1
/-- `E32 = b[30:23]` (spec 30 R62). -/
def exp32 (b : Single) : BitVec 8 := b.extractLsb' 23 8
/-- `m32 = b[22:0]` (spec 30 R62), which is `mantissa_bits` of spec 30 R65. -/
def man32 (b : Single) : BitVec 23 := b.extractLsb' 0 23
/-- `key = b[31:23]`, the index into BASE_TABLE and SHIFT_TABLE (spec 30 R64). -/
def keyOf (b : Single) : Key := b.extractLsb' 23 9

/-- `x[63]` (spec 30 R63). -/
def sign64 (x : Double) : BitVec 1 := x.extractLsb' 63 1
/-- `E64 = x[62:52]` (spec 30 R63). -/
def exp64 (x : Double) : BitVec 11 := x.extractLsb' 52 11
/-- `F = x[51:0]` (spec 30 R63). -/
def frac64 (x : Double) : BitVec 52 := x.extractLsb' 0 52

/-! ### Classes -/

/-- The value classes of a binary format. -/
inductive FpClass where
  | zero | denormal | normal | infinity | quietNan | signallingNan
deriving DecidableEq, Repr

/-- The class of a binary16 pattern (spec 30 R61). -/
def class16 (h : Half) : FpClass :=
  if exp16 h = 0#5 then (if man16 h = 0#10 then .zero else .denormal)
  else if exp16 h = 31#5 then
    (if man16 h = 0#10 then .infinity else if (man16 h).getLsbD 9 then .quietNan else .signallingNan)
  else .normal

/-- The class of a binary32 pattern (spec 30 R62). -/
def class32 (b : Single) : FpClass :=
  if exp32 b = 0#8 then (if man32 b = 0#23 then .zero else .denormal)
  else if exp32 b = 255#8 then
    (if man32 b = 0#23 then .infinity else if (man32 b).getLsbD 22 then .quietNan else .signallingNan)
  else .normal

/-- The class of a binary64 pattern (spec 30 R63). -/
def class64 (x : Double) : FpClass :=
  if exp64 x = 0#11 then (if frac64 x = 0#52 then .zero else .denormal)
  else if exp64 x = 2047#11 then
    (if frac64 x = 0#52 then .infinity else if (frac64 x).getLsbD 51 then .quietNan else .signallingNan)
  else .normal

/-- A class is a NaN's, quiet or signalling. -/
def FpClass.isNan : FpClass → Bool
  | .quietNan => true
  | .signallingNan => true
  | _ => false

/-! ### Values -/

/-- What a pattern stands for: no value (a NaN), a signed infinity, or a number. Both zeros are the number 0. -/
inductive FpValue where
  | nan
  | infinite (negative : Bool)
  | finite (q : ℚ)
deriving DecidableEq, Repr

/-- `(-1)^s` (spec 30 R61). -/
def signFactor (s : BitVec 1) : ℚ := (-1) ^ s.toNat

/-- The magnitude of a binary16 pattern that is no infinity and no NaN (spec 30 R61): a denormal is `m16 × 2^-24`, a
normal `(1 + m16/1024) × 2^(E16-15)`. -/
def finiteMag16 (h : Half) : ℚ :=
  if exp16 h = 0#5 then ((man16 h).toNat : ℚ) * (2 : ℚ) ^ (-24 : ℤ)
  else (1 + ((man16 h).toNat : ℚ) / 1024) * (2 : ℚ) ^ (((exp16 h).toNat : ℤ) - 15)

/-- The magnitude of a finite binary32 pattern (spec 30 R62): `m32 × 2^-149` or `(1 + m32/2^23) × 2^(E32-127)`. -/
def finiteMag32 (b : Single) : ℚ :=
  if exp32 b = 0#8 then ((man32 b).toNat : ℚ) * (2 : ℚ) ^ (-149 : ℤ)
  else (1 + ((man32 b).toNat : ℚ) / 2 ^ 23) * (2 : ℚ) ^ (((exp32 b).toNat : ℤ) - 127)

/-- The magnitude of a finite binary64 pattern (spec 30 R63): `F × 2^-1074` or `(1 + F/2^52) × 2^(E64-1023)`. -/
def finiteMag64 (x : Double) : ℚ :=
  if exp64 x = 0#11 then ((frac64 x).toNat : ℚ) * (2 : ℚ) ^ (-1074 : ℤ)
  else (1 + ((frac64 x).toNat : ℚ) / 2 ^ 52) * (2 : ℚ) ^ (((exp64 x).toNat : ℤ) - 1023)

/-- The value of a binary16 pattern (spec 30 R61). -/
def value16 (h : Half) : FpValue :=
  if (class16 h).isNan then .nan
  else if class16 h = .infinity then .infinite (sign16 h == 1#1)
  else .finite (signFactor (sign16 h) * finiteMag16 h)

/-- The value of a binary32 pattern (spec 30 R62). -/
def value32 (b : Single) : FpValue :=
  if (class32 b).isNan then .nan
  else if class32 b = .infinity then .infinite (sign32 b == 1#1)
  else .finite (signFactor (sign32 b) * finiteMag32 b)

/-- The value of a binary64 pattern (spec 30 R63). -/
def value64 (x : Double) : FpValue :=
  if (class64 x).isNan then .nan
  else if class64 x = .infinity then .infinite (sign64 x == 1#1)
  else .finite (signFactor (sign64 x) * finiteMag64 x)

/-- Real order with the two infinities at its ends; a NaN is not ordered. -/
def FpValue.le : FpValue → FpValue → Prop
  | .nan, _ => False
  | _, .nan => False
  | .infinite true, _ => True
  | _, .infinite false => True
  | .infinite false, _ => False
  | _, .infinite true => False
  | .finite p, .finite q => p ≤ q

/-- `ord(h)`: the signed-magnitude order of binary16 patterns (spec 41 R122). -/
def ord16 (h : Half) : Int :=
  if sign16 h = 1#1 then -((h &&& 0x7FFF#16).toNat : Int) else ((h &&& 0x7FFF#16).toNat : Int)

end Sys2Proof.Machine
end

