-- ==== Sys2Proof/Machine/Narrow.lean ====
section
/-! DEFINITION. NARROW, the binary64 to binary32 conversion of PACK (spec 41 R111 to R115), under every value of
`P_NARROW_RND` and `P_NAN_QUIET`. -/

namespace Sys2Proof.Machine

/-- `(s << 31) | magnitude` for a 31-bit magnitude. -/
def withSign32 (s : BitVec 1) (magnitude : BitVec 31) : Single := s ++ magnitude

/-- The rounding increment of spec 41 R113 and R115: under RNE, when the discarded bits `r` are above `half`, or equal
to it with the kept part odd. -/
def roundsUp (c : Config) (kept r half : Nat) : Bool :=
  c.narrowRnd == .rne && (decide (half < r) || (r == half && kept % 2 == 1))

/-- NARROW of an infinity (spec 41 R112). -/
def narrowInfinity (s : BitVec 1) : Single := withSign32 s 0x7F800000#31

/-- NARROW of a zero or a binary64 subnormal (spec 41 R112). -/
def narrowZero (s : BitVec 1) : Single := withSign32 s 0#31

/-- NARROW of a NaN with fraction `f` (spec 41 R114). -/
def narrowNan (c : Config) (s : BitVec 1) (f : BitVec 52) : Single :=
  if c.nanQuiet then withSign32 s (0x7FC00000#31 ||| (f.extractLsb' 29 22).setWidth 31)
  else
    let p := f.extractLsb' 29 23
    let p := if p = 0#23 then 0x400000#23 else p
    withSign32 s (0x7F800000#31 ||| p.setWidth 31)

/-- NARROW of a normal operand of magnitude at least 2^128 (spec 41 R113, e > 127). -/
def narrowOverflow (c : Config) (s : BitVec 1) : Single :=
  match c.narrowRnd with
  | .rne => withSign32 s 0x7F800000#31
  | .rtz => withSign32 s 0x7F7FFFFF#31

/-- NARROW of a normal operand in the range of the binary32 normals (spec 41 R113, -126 ≤ e ≤ 127). -/
def narrowNormal (c : Config) (s : BitVec 1) (e : Int) (f : BitVec 52) : Single :=
  let t := ((e + 127).toNat <<< 23) ||| (f.extractLsb' 29 23).toNat
  let r := (f.extractLsb' 0 29).toNat
  let t := if roundsUp c t r (2 ^ 28) then t + 1 else t
  withSign32 s (BitVec.ofNat 31 t)

/-- NARROW of a normal operand below the binary32 normals (spec 41 R115, e < -126). -/
def narrowSubnormal (c : Config) (s : BitVec 1) (e : Int) (f : BitVec 52) : Single :=
  let m := 2 ^ 52 ||| f.toNat
  let n := (-97 - e).toNat
  let keep := m >>> n
  let r := m % 2 ^ n
  let keep := if roundsUp c keep r (2 ^ (n - 1)) then keep + 1 else keep
  withSign32 s (BitVec.ofNat 31 keep)

/-- NARROW (spec 41 R111): the case is chosen by the exponent field and the fraction. -/
def narrow (c : Config) (x : Double) : Single :=
  let s := sign64 x
  let f := frac64 x
  let e : Int := ((exp64 x).toNat : Int) - 1023
  if exp64 x = 2047#11 then (if f = 0#52 then narrowInfinity s else narrowNan c s f)
  else if exp64 x = 0#11 then narrowZero s
  else if 127 < e then narrowOverflow c s
  else if -126 ≤ e then narrowNormal c s e f
  else narrowSubnormal c s e f

end Sys2Proof.Machine
end

