-- ==== Sys2Proof/Machine/Pack.lean ====
section
/-! DEFINITION. PACK, the operation of `float16_pack_converter` (spec 41). -/

namespace Sys2Proof.Machine

/-- PACK32, the table stage: `h = (BASE[b[31:23]] + (b[22:0] >> SHIFT[b[31:23]])) mod 2^16` (spec 41 R116). -/
def pack32 (t : Tables) (b : Single) : Half :=
  let key := keyOf b
  ((t.readBase key).setWidth 32 + ((man32 b).setWidth 32 >>> (t.readShift key).toNat)).setWidth 16

/-- The function the converter computes from `pk_x` to `pk_h`: PACK(x) = PACK32(NARROW(x)) (spec 41 R110, R120). -/
def packFunction (c : Config) (t : Tables) (x : Double) : Half := pack32 t (narrow c x)

/-- The output port `pk_h`, "the function of its current input" (spec 10 R26, R29). -/
def State.pkH (s : State) : Option Half := s.ports.pkX.map (packFunction s.cfg s.tables)

/-- PACK (spec 41 R110): drives `pk_x`; the converter drives `bs_key` (spec 41 R116); the response is `pk_h`. It writes
no flag (spec 41 R123). -/
def execPack (x : Double) (s : State) : Host.Outcome State Fault Refusal :=
  s.transact 64
    (((s.drivePkX x).driveBsKey (keyOf (narrow s.cfg x))).respond (.pack (packFunction s.cfg s.tables x)))

end Sys2Proof.Machine
end

