-- ==== Sys2Proof/Machine/Widen.lean ====
section
/-! DEFINITION. WIDEN, the binary32 to binary64 conversion of UNPACK (spec 42 R135). -/

namespace Sys2Proof.Machine

/-- A binary64 pattern from its three fields (spec 30 R63). -/
def double64 (s : BitVec 1) (e : BitVec 11) (f : BitVec 52) : Double := s ++ e ++ f

/-- WIDEN (spec 42 R135). The subnormal case cannot be reached through UNPACK (spec 42 R134). -/
def widen (c : Config) (b : Single) : Double :=
  let s := sign32 b
  let e := exp32 b
  let m := man32 b
  let shifted : BitVec 52 := m.setWidth 52 <<< 29
  if e = 255#8 then
    if m = 0#23 then double64 s 0x7FF#11 0#52
    else double64 s 0x7FF#11 (shifted ||| if c.nanQuiet then 1#52 <<< 51 else 0#52)
  else if e = 0#8 then
    if m = 0#23 then double64 s 0#11 0#52
    else
      let p := m.toNat.log2
      double64 s (BitVec.ofNat 11 (p + 874)) (BitVec.ofNat 52 (m.toNat <<< (52 - p)))
  else double64 s (BitVec.ofNat 11 (e.toNat + 896)) shifted

end Sys2Proof.Machine
end

