-- ==== Sys2Proof/Machine/Unpack.lean ====
section
/-! DEFINITION. UNPACK, the operation of `float16_unpack_converter` (spec 42). -/

namespace Sys2Proof.Machine

/-- `m_idx = OFFSET[exp_idx] + mant_bits` (spec 30 R68, 42 R131). -/
def mantIdxOf (t : Tables) (h : Half) : MantIdx :=
  (t.readOffset (expIdxOf h) + (man16 h).setWidth 16).setWidth 11

/-- UNPACK32, the table stage: `bits = (MANTISSA[OFFSET[h[15:10]] + h[9:0]] + EXPONENT[h[15:10]]) mod 2^32`
(spec 42 R131). -/
def unpack32 (t : Tables) (h : Half) : Single :=
  t.readMantissa (mantIdxOf t h) + t.readExponent (expIdxOf h)

/-- The function the converter computes from `up_h` to `up_x`: WIDEN(UNPACK32(h)) (spec 42 R130). -/
def unpackFunction (c : Config) (t : Tables) (h : Half) : Double := widen c (unpack32 t h)

/-- The output port `up_x` (spec 10 R26, R29). -/
def State.upX (s : State) : Option Double := s.ports.upH.map (unpackFunction s.cfg s.tables)

/-- UNPACK (spec 42 R130): drives `up_h`; the converter drives `oe_idx` and `m_idx` (spec 42 R131); the response is
`up_x`. It writes no flag (spec 42 R136). -/
def execUnpack (h : Half) (s : State) : Host.Outcome State Fault Refusal :=
  s.transact 16
    ((((s.driveUpH h).driveOeIdx (expIdxOf h)).driveMIdx (mantIdxOf s.tables h)).respond
      (.unpack (unpackFunction s.cfg s.tables h)))

end Sys2Proof.Machine
end

