-- ==== Sys2Proof/Machine/Dispatch.lean ====
section
/-! DEFINITION. The meaning of each instruction, one arm per constructor. -/

namespace Sys2Proof.Machine

def exec (i : Instr) (s : State) : Host.Outcome State Fault Refusal :=
  match i with
  | .pack x => Sys2Proof.Machine.execPack x s
  | .unpack h => Sys2Proof.Machine.execUnpack h s
  | .lutBs key => Sys2Proof.Machine.execLutBs key s
  | .lutOe idx => Sys2Proof.Machine.execLutOe idx s
  | .lutM idx => Sys2Proof.Machine.execLutM idx s

end Sys2Proof.Machine
end

