-- ==== Sys2Proof/Machine/Step.lean ====
section
/-! DEFINITION. One step: the machine takes the oldest thing presented to it (log entry 6). -/

namespace Sys2Proof.Machine

/-- One step. A request word is decoded first (spec 60 R153, check 1) and then run by `exec`, which makes the other
checks; the reset input is pulled; with nothing presented the block idles. -/
def step (s : State) : Host.Outcome State Fault Refusal :=
  match s.inputs with
  | [] => .next s.idle
  | .rst :: _ => .next s.pullReset
  | .request r :: _ =>
    match decode r.word with
    | .ok i => exec i s
    | .error e => .refused (refusalOf e)

/-- The state with the instruction whose bits are `w` presented as the next request (log entry 18). A number that is no
67-bit request word is not presented (log entry 19). -/
def State.withFetchWord (s : State) (nbits w : Nat) : State :=
  match tableWord nbits w with
  | some q => s.present q
  | none => s

end Sys2Proof.Machine
end

