-- ==== Sys2Proof/Machine/Notation.lean ====
section
/-! DEFINITION. The text of transactions (spec 30 R73) and the pseudo-instructions PACKD and RTRIP (spec 30 R74). It is
a textual convenience: every line becomes a request word before anything runs, and no meaning depends on this file. -/

namespace Sys2Proof.Machine

/-! ### Lines -/

/-- An operand as written: a hex literal, or `$n`, the response of the n-th line of the program, numbered from 1. -/
inductive OperandText where
  | literal (v : Nat)
  | response (n : Nat)
deriving DecidableEq, Repr

/-- A line of one operation (spec 30 R73). -/
structure CoreLine where
  op      : Mnemonic
  operand : OperandText
deriving DecidableEq, Repr

/-- A decimal literal of PACKD (spec 30 R74): `± digits × 10^exp10`, or one of the three spelled values. -/
inductive DecimalLiteral where
  | number (negative : Bool) (digits : Nat) (exp10 : Int)
  | nan
  | posInf
  | negInf
deriving DecidableEq, Repr

/-- A line of a program. -/
inductive SourceLine where
  | core (l : CoreLine)
  | packd (d : DecimalLiteral)
  | rtrip (h : Half)
deriving DecidableEq, Repr

/-- How many hex digits an operation's literal has (spec 30 R73). -/
def hexDigitsOf : Mnemonic → Nat
  | .pack => 16
  | .unpack => 4
  | .lutBs => 3
  | .lutOe => 2
  | .lutM => 3

/-! ### PACKD's decimal literal (spec 30 R74, 93 GK5) -/

/-- The magnitude bits of the binary64 nearest the fraction `n / d` (`d` not 0), ties to even. A fraction that rounds
above the largest finite binary64 gives infinity (log entry 22). -/
def nearestMagnitude64 (n d : Nat) : Nat :=
  if n = 0 then 0
  else
    let e : Int := (n.log2 : Int) - (d.log2 : Int)
    let below : Bool := if e < 0 then n * 2 ^ (-e).toNat < d else n < d * 2 ^ e.toNat
    let e := if below then e - 1 else e
    let u := max (e - 52) (-1074)
    let num := if u < 0 then n * 2 ^ (-u).toNat else n
    let den := if u < 0 then d else d * 2 ^ u.toNat
    let q := num / den
    let r := num % den
    let q := if den < 2 * r ∨ (2 * r = den ∧ q % 2 = 1) then q + 1 else q
    min (((u + 1074).toNat <<< 52) + q) 0x7FF0000000000000

/-- The binary64 bits of a PACKD literal (spec 30 R74). -/
def DecimalLiteral.bits : DecimalLiteral → Double
  | .number negative digits exp10 =>
    let mag :=
      if exp10 < 0 then nearestMagnitude64 digits (10 ^ (-exp10).toNat)
      else nearestMagnitude64 (digits * 10 ^ exp10.toNat) 1
    BitVec.ofNat 64 mag ||| if negative then 0x8000000000000000#64 else 0#64
  | .nan => 0x7FF8000000000000#64
  | .posInf => 0x7FF0000000000000#64
  | .negInf => 0xFFF0000000000000#64

/-! ### Expansion (spec 30 R74) -/

/-- The operation lines of a program whose first line has the number `n`. PACKD is one PACK; RTRIP is an UNPACK and a
PACK of its response. -/
def expandFrom (n : Nat) : List SourceLine → List CoreLine
  | [] => []
  | .core l :: rest => l :: expandFrom (n + 1) rest
  | .packd d :: rest => ⟨.pack, .literal d.bits.toNat⟩ :: expandFrom (n + 1) rest
  | .rtrip h :: rest =>
    ⟨.unpack, .literal h.toNat⟩ :: ⟨.pack, .response n⟩ :: expandFrom (n + 2) rest

/-- The operation lines of a program; its lines are numbered from 1 (spec 30 R73). -/
def expand (p : List SourceLine) : List CoreLine := expandFrom 1 p

/-! ### Request words -/

/-- A response of one value; the responses of LUT.BS and LUT.OE are two values and stand for no operand (log entry
23). -/
def Response.single : Response → Option Nat
  | .pack h => some h.toNat
  | .unpack x => some x.toNat
  | .lutBs _ _ => none
  | .lutOe _ _ => none
  | .lutM v => some v.toNat

/-- The number an operand stands for, given the responses of the earlier lines. -/
def OperandText.value (earlier : List Response) : OperandText → Option Nat
  | .literal v => some v
  | .response 0 => none
  | .response (n + 1) => earlier[n]?.bind Response.single

/-- The request word a line names, given the responses of the earlier lines; none where the operand has more hex digits
than spec 30 R73 gives the line. -/
def CoreLine.word (earlier : List Response) (l : CoreLine) : Option ReqWord :=
  match l.operand.value earlier with
  | none => none
  | some v => if v < 16 ^ hexDigitsOf l.op then some (wordOf l.op.op (BitVec.ofNat 64 v)) else none

/-- The line that names an instruction. -/
def CoreLine.ofInstr (i : Instr) : CoreLine := ⟨i.mnemonic, .literal i.operand.toNat⟩

/-! ### Text -/

/-- An operation's name as written (spec 30 R73). -/
def mnemonicText : Mnemonic → List Char
  | .pack => ['P', 'A', 'C', 'K']
  | .unpack => ['U', 'N', 'P', 'A', 'C', 'K']
  | .lutBs => ['L', 'U', 'T', '.', 'B', 'S']
  | .lutOe => ['L', 'U', 'T', '.', 'O', 'E']
  | .lutM => ['L', 'U', 'T', '.', 'M']

/-- One hex digit, in capitals. -/
def hexChar (d : Nat) : Char :=
  ['0', '1', '2', '3', '4', '5', '6', '7', '8', '9', 'A', 'B', 'C', 'D', 'E', 'F'].getD d '0'

/-- The low `n` hex digits of a number, the highest first. -/
def hexText : Nat → Nat → List Char
  | 0, _ => []
  | n + 1, v => hexText n (v / 16) ++ [hexChar (v % 16)]

/-- A hex literal of `n` digits. -/
def hexLiteral (n v : Nat) : List Char := '0' :: 'x' :: hexText n v

/-- A number in decimal. -/
def decimalText (v : Nat) : List Char := Nat.toDigits 10 v

/-- An instruction as written (spec 30 R73). -/
def Instr.text (i : Instr) : List Char :=
  mnemonicText i.mnemonic ++ ' ' :: hexLiteral (hexDigitsOf i.mnemonic) i.operand.toNat

/-- A response as written after `->`: one hex value, or two values for LUT.BS and LUT.OE (spec 30 R73; the shift and
the offset in decimal, as in the examples of spec 40 R91 and R92). -/
def Response.text : Response → List Char
  | .pack h => hexLiteral 4 h.toNat
  | .unpack x => hexLiteral 16 x.toNat
  | .lutBs base shift => '(' :: hexLiteral 4 base.toNat ++ [',', ' '] ++ decimalText shift.toNat ++ [')']
  | .lutOe offset exp =>
    '(' :: decimalText offset.toNat ++ [',', ' '] ++ hexLiteral 8 exp.toNat ++ [')']
  | .lutM v => hexLiteral 8 v.toNat

/-! ### Reading text -/

/-- The words of a line, up to its comment: "`;` starts a comment" (spec 30 R73). -/
def wordsOf : List Char → List (List Char)
  | [] => [[]]
  | c :: cs =>
    if c = ';' then [[]]
    else
      match wordsOf cs with
      | [] => [[c]]
      | w :: ws => if c = ' ' then [] :: w :: ws else (c :: w) :: ws

/-- The value of a hex digit. -/
def hexValue (c : Char) : Option Nat :=
  let n := c.toNat
  if 48 ≤ n ∧ n ≤ 57 then some (n - 48)
  else if 65 ≤ n ∧ n ≤ 70 then some (n - 55)
  else if 97 ≤ n ∧ n ≤ 102 then some (n - 87)
  else none

/-- The value of digits in a base of at most 16, after the digits read so far. -/
def digitsValue (base : Nat) : Nat → List Char → Option Nat
  | v, [] => some v
  | v, c :: cs =>
    match hexValue c with
    | some d => if d < base then digitsValue base (v * base + d) cs else none
    | none => none

/-- A hex literal of exactly `n` digits. -/
def readHex (n : Nat) : List Char → Option Nat
  | '0' :: 'x' :: ds => if ds.length = n then digitsValue 16 0 ds else none
  | _ => none

/-- A decimal number of one digit or more. -/
def readDecimal : List Char → Option Nat
  | [] => none
  | ds => digitsValue 10 0 ds

/-- A decimal number with a sign before it, or none. -/
def readSigned : List Char → Option Int
  | '-' :: ds => (readDecimal ds).map (fun v => -(v : Int))
  | '+' :: ds => (readDecimal ds).map (fun v => (v : Int))
  | ds => (readDecimal ds).map (fun v => (v : Int))

/-- An unsigned decimal literal: digits, a fraction after `.`, a power of ten after `e`. -/
def readUnsignedLiteral (negative : Bool) (cs : List Char) : Option DecimalLiteral :=
  let mantissa := cs.takeWhile (fun c => c != 'e' && c != 'E')
  let power := match cs.drop mantissa.length with
    | [] => some 0
    | _ :: ds => readSigned ds
  let whole := mantissa.takeWhile (fun c => c != '.')
  let fraction := mantissa.drop (whole.length + 1)
  match readDecimal (whole ++ fraction), power with
  | some digits, some p => some (.number negative digits (p - (fraction.length : Int)))
  | _, _ => none

/-- A literal of PACKD (spec 30 R74). -/
def readLiteral : List Char → Option DecimalLiteral
  | ['N', 'a', 'N'] => some .nan
  | ['+', 'I', 'n', 'f'] => some .posInf
  | ['-', 'I', 'n', 'f'] => some .negInf
  | '-' :: cs => readUnsignedLiteral true cs
  | cs => readUnsignedLiteral false cs

/-- The operation of a name. -/
def readMnemonic (cs : List Char) : Option Mnemonic :=
  [Mnemonic.pack, .unpack, .lutBs, .lutOe, .lutM].find? (fun m => mnemonicText m == cs)

/-- The operand of an operation: a literal of the operation's digits, or `$n`. -/
def readOperand (m : Mnemonic) : List Char → Option OperandText
  | '$' :: ds => (readDecimal ds).map .response
  | cs => (readHex (hexDigitsOf m) cs).map .literal

/-- One line of text; a line may show its response after `->`, which names nothing. -/
def readLine (cs : List Char) : Option SourceLine :=
  match ((wordsOf cs).filter (fun w => !w.isEmpty)).takeWhile (fun w => w != ['-', '>']) with
  | [name, operand] =>
    if name = ['P', 'A', 'C', 'K', 'D'] then (readLiteral operand).map .packd
    else if name = ['R', 'T', 'R', 'I', 'P'] then (readHex 4 operand).map (fun v => .rtrip (BitVec.ofNat 16 v))
    else
      match readMnemonic name with
      | some m => (readOperand m operand).map (fun o => .core ⟨m, o⟩)
      | none => none
  | _ => none

end Sys2Proof.Machine
end

