-- ==== Sys2Proof/Safety.lean ====
section
/-! DEFINITION. What counts as a safe run, in the terms the statements use: the invariant of the tables, requests that
end in a result, and the response a request gets. -/

namespace Sys2Proof.Machine

/-- No entry below index `n` differs from its contents, in any table: the fill has been there. -/
def Tables.filledBelow (t : Tables) (n : Nat) : Bool :=
  t.base.all (fun p => decide (n ≤ p.1)) && t.shift.all (fun p => decide (n ≤ p.1))
    && t.mantissa.all (fun p => decide (n ≤ p.1)) && t.offset.all (fun p => decide (n ≤ p.1))
    && t.exponent.all (fun p => decide (n ≤ p.1))

/-- The invariant of the machine: each table is in canonical form; tables that may be read hold the contents of spec 40
(spec 70 R171 to R173); while they may not be read, the fill has written every entry below `fillNext`. -/
abbrev State.Inv (s : State) : Prop :=
  s.tables.wf = true ∧ (s.tablesValid = true → s.tables = Tables.filled) ∧ s.fillNext ≤ fillLength ∧
    (s.tablesValid = false → s.tables.filledBelow s.fillNext = true)

/-- A request that ends in a result: its word is admitted and every line of its operand is driven (spec 00 R13). -/
def Request.acceptable (r : Request) : Bool :=
  match decode r.word with
  | .ok i => r.undriven.setWidth i.mnemonic.operandWidth == 0#i.mnemonic.operandWidth
  | .error _ => false

/-- What the outside does stops no run: a request that ends in a result, or a reset. -/
def Input.acceptable : Input → Bool
  | .request r => r.acceptable
  | .rst => true

/-- A state from which no step stops. -/
def State.Safe (s : State) : Prop := s.Inv ∧ ∀ p ∈ s.inputs, p.acceptable = true

/-- The response of an instruction, a function of its operand and the constant tables alone (spec 10 R20). -/
def responseOf (c : Config) : Instr → Response
  | .pack x => .pack (packFunction c Tables.filled x)
  | .unpack h => .unpack (unpackFunction c Tables.filled h)
  | .lutBs key => .lutBs (Tables.filled.readBase key) (Tables.filled.readShift key)
  | .lutOe idx => .lutOe (Tables.filled.readOffset idx) (Tables.filled.readExponent idx)
  | .lutM idx => .lutM (Tables.filled.readMantissa idx)

/-- The responses of the requests among what the outside does, in order. -/
def responsesTo (c : Config) : List Input → List Response
  | [] => []
  | .rst :: rest => responsesTo c rest
  | .request r :: rest =>
    match decode r.word with
    | .ok i => responseOf c i :: responsesTo c rest
    | .error _ => responsesTo c rest

/-- `n` steps, stopping at the first fault or refusal: the host's `Host.Core.run` of this machine (Laws/Step.lean). -/
def runSteps : Nat → State → Host.Outcome State Fault Refusal
  | 0, s => .next s
  | n + 1, s =>
    match step s with
    | .next t => runSteps n t
    | .fault r => .fault r
    | .refused r => .refused r

/-- `f` on the next state; a fault or a refusal stays as it is. -/
def mapNext (f : State → State) : Host.Outcome State Fault Refusal → Host.Outcome State Fault Refusal
  | .next s => .next (f s)
  | .fault r => .fault r
  | .refused r => .refused r

/-- Truncation to binary16 of a number of sign `s` and magnitude `m` (spec 41 R119): "If |value(b)| ≥ 65536, h is
±infinity with b's sign. Otherwise h has b's sign and the largest binary16 magnitude not above |value(b)|." -/
def IsTruncation (s : BitVec 1) (m : ℚ) (h : Half) : Prop :=
  (65536 ≤ m → h = (s.setWidth 16 <<< 15) ||| 0x7C00#16) ∧
    (m < 65536 → sign16 h = s ∧ exp16 h ≠ 31#5 ∧ finiteMag16 h ≤ m ∧
      ∀ g : Half, exp16 g ≠ 31#5 → finiteMag16 g ≤ m → finiteMag16 g ≤ finiteMag16 h)

end Sys2Proof.Machine
end

