-- ==== Sys2Proof/Certificates/Slice0/Obligations.lean ====
section
/-! DEFINITION. The statements for the provers, each from the numbered rules of spec/ that its docstring names. -/

open Sys2Proof Sys2Proof.Machine

/-! ### Request words -/

/-- Spec 30 R69, R70: no bit of an encoding is dropped; every instruction is well-formed. -/
def Obligations.DecodeOfEncodeIsTheInstruction : Prop :=
  ∀ i : Instr, i.wellFormed = true ∧ decode (encode i) = .ok i

/-- Spec 30 R69, R70: an admitted request word is the encoding of the instruction it decodes to, so each word has one
meaning and each instruction one word. -/
def Obligations.EncodeOfDecodeIsTheWord : Prop :=
  ∀ (q : ReqWord) (i : Instr), decode q = .ok i → encode i = q

/-- spec/opcode_table.json: a word decodes to a row's operation exactly when the row's mask and match say so, and no
word belongs to two rows. -/
def Obligations.DecodeFollowsTheOpcodeTable : Prop :=
  (∀ r ∈ opcodeRows, ∀ q : ReqWord,
      (∃ i, decode q = .ok i ∧ i.mnemonic = r.mnemonic) ↔ r.hits q = true) ∧
    opcodeRows.Pairwise fun r t => ∀ q : ReqWord, ¬ (r.hits q = true ∧ t.hits q = true)

/-- Spec 30 R69 and spec 95: words written out from the encoding decode to the instructions they stand for. -/
def Obligations.WrittenOutWordsDecode : Prop :=
  decode 0x0409FFC0000000000#67 = .ok (.pack 0x409FFC0000000000#64) ∧
    decode 0x100000000000067FF#67 = .ok (.unpack 0x67FF#16) ∧
    decode 0x20000000000000089#67 = .ok (.lutBs 0x089#9) ∧
    decode 0x30000000000000019#67 = .ok (.lutOe 0x19#6) ∧
    decode 0x400000000000007FF#67 = .ok (.lutM 0x7FF#11)

/-- Spec 30 R71: the two cases in which a request word is refused, and no other; whatever the state and the undriven
lines are (spec 60 R153: the request word is checked first). -/
def Obligations.ReservedRequestWordsAreRefused : Prop :=
  ∀ (s : State) (q : ReqWord) (u : BitVec 64) (rest : List Input),
    s.inputs = .request ⟨q, u⟩ :: rest →
      let op := (q.extractLsb' 64 3).toNat
      let operand := (q.extractLsb' 0 64).toNat
      let aboveField := (op = 1 ∧ 2 ^ 16 ≤ operand) ∨ (op = 2 ∧ 2 ^ 9 ≤ operand) ∨ (op = 3 ∧ 2 ^ 6 ≤ operand) ∨
        (op = 4 ∧ 2 ^ 11 ≤ operand)
      (5 ≤ op → step s = .refused .reservedOp) ∧
        (aboveField → step s = .refused .reservedOperandBits) ∧
        (op < 5 → ¬ aboveField → ∀ r, step s ≠ .refused r)

/-! ### Steps -/

/-- A step runs the decoded request: when the oldest thing presented is a request whose word decodes to `i`, the step
is `exec i`, which also takes the request off `inputs` when it completes. -/
def Obligations.StepRunsTheDecodedRequest : Prop :=
  ∀ (s : State) (r : Request) (rest : List Input) (i : Instr),
    s.inputs = .request r :: rest → decode r.word = .ok i → step s = exec i s

/-- Log entry 18 (DESIGN CHOICE): presenting an instruction's word makes it the next thing a step runs, with every
operand line driven, and changes nothing else. -/
def Obligations.PresentedWordIsRunNext : Prop :=
  ∀ (s : State) (i : Instr) (nbits : Nat), 67 ≤ nbits →
    decodeTableWord nbits (encode i).toNat = some i ∧
      s.withFetchWord nbits (encode i).toNat = { s with inputs := .request ⟨encode i, 0#64⟩ :: s.inputs.tail } ∧
      step (s.withFetchWord nbits (encode i).toNat) = exec i (s.withFetchWord nbits (encode i).toNat)

/-- Log entry 21 (DESIGN CHOICE): with nothing presented and valid tables, a step changes nothing. -/
def Obligations.NothingPresentedNothingChanges : Prop :=
  ∀ s : State, s.inputs = [] → s.tablesValid = true → step s = .next s

/-- Spec 10 R27: once the tables are valid, a transaction with an undriven bit in its operand ends in
`fault(UndrivenOperand)`, and every driven operand has a result. -/
def Obligations.UndrivenOperandFaults : Prop :=
  ∀ (i : Instr) (s : State), s.tablesValid = true →
    ((∃ k < i.mnemonic.operandWidth, s.undriven.getLsbD k = true) → exec i s = .fault .undrivenOperand) ∧
      ((∀ k < i.mnemonic.operandWidth, s.undriven.getLsbD k = false) →
        ∃ t r, exec i s = .next t ∧ t.responses = s.responses ++ [r])

/-- Spec 70 R172 and 60 R153: under INIT, before `tables_ready`, a transaction is held whatever its operand: it gets no
response, and the fill goes on; the last step of the fill sets `tables_ready`. The model's choices: a hold is a step of
the fill, one index a step, with the request still presented (log entries 13, 14), and it changes no port (log entry
26). -/
def Obligations.TransactionHeldBeforeTablesReady : Prop :=
  ∀ (i : Instr) (s : State), s.cfg.tableImpl = .init → s.tablesReady = false →
    ∃ t, exec i s = .next t ∧ t.inputs = s.inputs ∧ t.responses = s.responses ∧ t.ports = s.ports ∧ t.cfg = s.cfg ∧
      t.freeDraws = s.freeDraws ∧
      (s.fillNext < 2048 →
        t.tables = s.tables.fillAt s.fillNext ∧ t.fillNext = s.fillNext + 1 ∧ t.tablesReady = false) ∧
      (2048 ≤ s.fillNext → t = { s with tablesReady := true })

/-! ### Results and frames of the five operations -/

/-- Spec 41 R116 (the converter drives `bs_key`; `pk_h` is the sum modulo 2^16), and nothing else changes: PACK
completes in every state whose tables are valid, with its operand driven. -/
def Obligations.PackCompletesWithTableSum : Prop :=
  ∀ (s : State) (x : Double), s.Inv → s.tablesValid = true → s.operandUndriven 64 = false →
    let b := narrow s.cfg x
    let key : Key := b.extractLsb' 23 9
    let mantissaBits : BitVec 23 := b.extractLsb' 0 23
    exec (.pack x) s = .next
      { s with
        ports := { s.ports with pkX := some x, bsKey := some key }
        inputs := s.inputs.tail
        responses := s.responses ++ [.pack (BitVec.ofNat 16
          ((baseContents key.toNat).toNat + (mantissaBits.toNat >>> (shiftContents key.toNat).toNat)))] }

/-- Spec 42 R131 (the converter drives `oe_idx` and `m_idx`; `bits` is the sum modulo 2^32) and R130 (`up_x` is
WIDEN(bits)), and nothing else changes: UNPACK completes in every state whose tables are valid, with its operand
driven. -/
def Obligations.UnpackCompletesWithTableSum : Prop :=
  ∀ (s : State) (h : Half), s.Inv → s.tablesValid = true → s.operandUndriven 16 = false →
    let idx : ExpIdx := h.extractLsb' 10 6
    let mIdx : Nat := (offsetContents idx.toNat).toNat + (h.extractLsb' 0 10).toNat
    let bits : Single := BitVec.ofNat 32 ((mantissaContents mIdx).toNat + (exponentContents idx.toNat).toNat)
    exec (.unpack h) s = .next
      { s with
        ports := { s.ports with upH := some h, oeIdx := some idx, mIdx := some (BitVec.ofNat 11 mIdx) }
        inputs := s.inputs.tail
        responses := s.responses ++ [.unpack (widen s.cfg bits)] }

/-- Spec 40 R91: LUT.BS completes with both entries of R81 and R82, and nothing else changes. -/
def Obligations.LutBsCompletesWithEntries : Prop :=
  ∀ (s : State) (key : Key), s.Inv → s.tablesValid = true → s.operandUndriven 9 = false →
    exec (.lutBs key) s = .next
      { s with
        ports := { s.ports with bsKey := some key }
        inputs := s.inputs.tail
        responses := s.responses ++ [.lutBs (baseContents key.toNat) (shiftContents key.toNat)] }

/-- Spec 40 R92: LUT.OE completes with both entries of R88 and R89, and nothing else changes. -/
def Obligations.LutOeCompletesWithEntries : Prop :=
  ∀ (s : State) (idx : ExpIdx), s.Inv → s.tablesValid = true → s.operandUndriven 6 = false →
    exec (.lutOe idx) s = .next
      { s with
        ports := { s.ports with oeIdx := some idx }
        inputs := s.inputs.tail
        responses := s.responses ++ [.lutOe (offsetContents idx.toNat) (exponentContents idx.toNat)] }

/-- Spec 40 R93: LUT.M completes with the entry of R84 to R87, and nothing else changes. -/
def Obligations.LutMCompletesWithEntry : Prop :=
  ∀ (s : State) (idx : MantIdx), s.Inv → s.tablesValid = true → s.operandUndriven 11 = false →
    exec (.lutM idx) s = .next
      { s with
        ports := { s.ports with mIdx := some idx }
        inputs := s.inputs.tail
        responses := s.responses ++ [.lutM (mantissaContents idx.toNat)] }

/-- Spec 10 R26, R29: after a transaction each output port carries the function of its input that the response gave.
The model's choices: the input port keeps the operand after the transaction (log entry 8, DESIGN CHOICE), each output is
computed from its own input port (log entry 9, DEDUCED), and responses are listed (log entry 7, DESIGN CHOICE). -/
def Obligations.OutputsCarryTheResponse : Prop :=
  ∀ (s t : State), s.tablesValid = true →
    (∀ x, exec (.pack x) s = .next t → ∃ h, t.pkH = some h ∧ t.responses = s.responses ++ [.pack h]) ∧
      (∀ h, exec (.unpack h) s = .next t → ∃ x, t.upX = some x ∧ t.responses = s.responses ++ [.unpack x]) ∧
      (∀ key, exec (.lutBs key) s = .next t →
        ∃ b k, t.bsBase = some b ∧ t.bsShift = some k ∧ t.responses = s.responses ++ [.lutBs b k]) ∧
      (∀ idx, exec (.lutOe idx) s = .next t →
        ∃ o e, t.oeOffset = some o ∧ t.oeExp = some e ∧ t.responses = s.responses ++ [.lutOe o e]) ∧
      (∀ idx, exec (.lutM idx) s = .next t → ∃ v, t.mVal = some v ∧ t.responses = s.responses ++ [.lutM v])

/-- Spec 20 R46: once the tables are valid, no step but an INIT reset changes what any entry reads as. -/
def Obligations.NoOperationWritesATable : Prop :=
  ∀ (s t : State), s.tablesValid = true → (s.cfg.tableImpl = .init → s.inputs.head? ≠ some .rst) → step s = .next t →
    t.tablesValid = true ∧
      (∀ key, t.tables.readBase key = s.tables.readBase key ∧ t.tables.readShift key = s.tables.readShift key) ∧
      (∀ idx, t.tables.readMantissa idx = s.tables.readMantissa idx) ∧
      (∀ idx, t.tables.readOffset idx = s.tables.readOffset idx ∧
        t.tables.readExponent idx = s.tables.readExponent idx)

/-- Spec 20 R41: PACK depends on one entry of BASE and one of SHIFT, at the same key; UNPACK on one entry of OFFSET and
one of EXPONENT at `exp_idx` and on one of MANTISSA at `OFFSET[exp_idx] + mant_bits`; on nothing else in the tables. -/
def Obligations.ConvertersReadOnlyTheirEntries : Prop :=
  (∀ (c : Config) (t t' : Tables) (x : Double), let key : Key := (narrow c x).extractLsb' 23 9
    t.readBase key = t'.readBase key → t.readShift key = t'.readShift key →
      packFunction c t x = packFunction c t' x) ∧
    ∀ (c : Config) (t t' : Tables) (h : Half), let idx : ExpIdx := h.extractLsb' 10 6
      let m : MantIdx := BitVec.ofNat 11 ((t.readOffset idx).toNat + (h.extractLsb' 0 10).toNat)
      t.readOffset idx = t'.readOffset idx → t.readExponent idx = t'.readExponent idx →
        t.readMantissa m = t'.readMantissa m → unpackFunction c t h = unpackFunction c t' h

/-- Spec 70 R175 and 10 R26: each operation drives only its own ports. -/
def Obligations.OperationsDriveOnlyTheirPorts : Prop :=
  ∀ (s t : State),
    (∀ x, exec (.pack x) s = .next t →
      t.ports.upH = s.ports.upH ∧ t.ports.oeIdx = s.ports.oeIdx ∧ t.ports.mIdx = s.ports.mIdx) ∧
    (∀ h, exec (.unpack h) s = .next t → t.ports.pkX = s.ports.pkX ∧ t.ports.bsKey = s.ports.bsKey) ∧
    (∀ key, exec (.lutBs key) s = .next t → t.ports.pkX = s.ports.pkX ∧ t.ports.upH = s.ports.upH ∧
      t.ports.oeIdx = s.ports.oeIdx ∧ t.ports.mIdx = s.ports.mIdx) ∧
    (∀ idx, exec (.lutOe idx) s = .next t → t.ports.pkX = s.ports.pkX ∧ t.ports.upH = s.ports.upH ∧
      t.ports.bsKey = s.ports.bsKey ∧ t.ports.mIdx = s.ports.mIdx) ∧
    (∀ idx, exec (.lutM idx) s = .next t → t.ports.pkX = s.ports.pkX ∧ t.ports.upH = s.ports.upH ∧
      t.ports.bsKey = s.ports.bsKey ∧ t.ports.oeIdx = s.ports.oeIdx)

/-! ### The tables -/

/-- Spec 40 R83: the whole of BASE_TABLE and SHIFT_TABLE, range by range, both signs. -/
def Obligations.BaseAndShiftTablesByRange : Prop :=
  ∀ idx : Nat, idx < 256 →
    let base := (Tables.filled.readBase (BitVec.ofNat 9 idx)).toNat
    let baseNeg := (Tables.filled.readBase (BitVec.ofNat 9 idx ||| 0x100#9)).toNat
    let shift := (Tables.filled.readShift (BitVec.ofNat 9 idx)).toNat
    let shiftNeg := (Tables.filled.readShift (BitVec.ofNat 9 idx ||| 0x100#9)).toNat
    shiftNeg = shift ∧
      (idx ≤ 102 → base = 0x0000 ∧ baseNeg = 0x8000 ∧ shift = 24) ∧
      (103 ≤ idx ∧ idx ≤ 112 → base = 2 ^ (idx - 103) ∧ baseNeg = 0x8000 + 2 ^ (idx - 103) ∧ shift = 126 - idx) ∧
      (113 ≤ idx ∧ idx ≤ 142 → base = (idx - 112) * 0x0400 ∧ baseNeg = 0x8000 + (idx - 112) * 0x0400 ∧ shift = 13) ∧
      (143 ≤ idx ∧ idx ≤ 254 → base = 0x7C00 ∧ baseNeg = 0xFC00 ∧ shift = 24) ∧
      (idx = 255 → base = 0x7C00 ∧ baseNeg = 0xFC00 ∧ shift = 13)

/-- Spec 40 R84, R86, R87: MANTISSA_TABLE in closed form; `p` is ⌊log2 i⌋. -/
def Obligations.MantissaTableInClosedForm : Prop :=
  Tables.filled.readMantissa 0#11 = 0x00000000#32 ∧
    (∀ i p : Nat, 1 ≤ i → i ≤ 1023 → 2 ^ p ≤ i → i < 2 ^ (p + 1) →
      Tables.filled.readMantissa (BitVec.ofNat 11 i) =
        BitVec.ofNat 32 (((p + 103) <<< 23) ||| ((i <<< (23 - p)) &&& 0x007FFFFF))) ∧
    (∀ i : Nat, 1024 ≤ i → i ≤ 2047 →
      (Tables.filled.readMantissa (BitVec.ofNat 11 i)).toNat = 0x38000000 + (i - 1024) * 2 ^ 13) ∧
    Tables.filled.readMantissa 2047#11 = 0x387FE000#32

/-- Spec 40 R85: the loop "ends because i ≠ 0, after at most 10 passes": the leading bit then stands at bit 23, further
passes change nothing, and acc is `0x38800000 - k × 0x00800000` less the bias with k in 1 to 10. -/
def Obligations.RenormLoopEndsInTenPasses : Prop :=
  ∀ i n : Nat, 1 ≤ i → i ≤ 1023 →
    let r := renormLoop 10 (i <<< 13) 0
    2 ^ 23 ≤ r.1 ∧ r.1 < 2 ^ 24 ∧ renormLoop (10 + n) (i <<< 13) 0 = r ∧
      ∃ k : Nat, 1 ≤ k ∧ k ≤ 10 ∧ r.1 = i * 2 ^ (13 + k) ∧ r.2 = -((k : Int) * 0x00800000)

/-- Spec 40 R88, R89: the whole of EXPONENT_TABLE and OFFSET_TABLE. -/
def Obligations.ExponentAndOffsetTables : Prop :=
  ∀ i : Nat, i < 64 →
    let exponent := (Tables.filled.readExponent (BitVec.ofNat 6 i)).toNat
    let offset := (Tables.filled.readOffset (BitVec.ofNat 6 i)).toNat
    (i = 0 → exponent = 0 ∧ offset = 0) ∧
      (1 ≤ i ∧ i ≤ 30 → exponent = i * 2 ^ 23 ∧ offset = 1024) ∧
      (i = 31 → exponent = 0x47800000 ∧ offset = 1024) ∧
      (i = 32 → exponent = 0x80000000 ∧ offset = 0) ∧
      (33 ≤ i ∧ i ≤ 62 → exponent = 0x80000000 + (i - 32) * 2 ^ 23 ∧ offset = 1024) ∧
      (i = 63 → exponent = 0xC7800000 ∧ offset = 1024)

/-- Spec 30 R68: the MANTISSA index is below 2048, its addition never carries, and its bit 10 is 1 exactly when E16 is
not 0. -/
def Obligations.MantissaIndexNeverCarries : Prop :=
  ∀ h : Half,
    let offset := Tables.filled.readOffset (expIdxOf h)
    let m := mantIdxOf Tables.filled h
    m.toNat = offset.toNat + (man16 h).toNat ∧ m.toNat ≤ 2047 ∧
      m = offset.extractLsb' 10 1 ++ man16 h ∧ (m.getLsbD 10 = true ↔ exp16 h ≠ 0#5)

/-! ### The table stages -/

/-- Spec 41 R117: the two addends of PACK32 have no set bit in common, the sum is at most 0xFFFF, and the addition is an
OR; with the reasons the rule gives by range. -/
def Obligations.PackAdditionNeverCarries : Prop :=
  ∀ b : Single,
    let base := (Tables.filled.readBase (keyOf b)).toNat
    let shifted := (man32 b).toNat >>> (Tables.filled.readShift (keyOf b)).toNat
    let e := (exp32 b).toNat
    base &&& shifted = 0 ∧ base + shifted ≤ 0xFFFF ∧ (pack32 Tables.filled b).toNat = base + shifted ∧
      base + shifted = base ||| shifted ∧
      (113 ≤ e ∧ e ≤ 142 → base &&& 0x03FF = 0 ∧ shifted ≤ 0x3FF) ∧
      (103 ≤ e ∧ e ≤ 112 → base &&& 0x7FFF = 0x0400 >>> (113 - e) ∧ shifted < 0x0400 >>> (113 - e)) ∧
      (e ≤ 102 ∨ (143 ≤ e ∧ e ≤ 254) → shifted = 0) ∧
      (e = 255 → base &&& 0x7FFF = 0x7C00 ∧ shifted ≤ 0x3FF)

/-- Spec 41 R118: PACK32's result by the binary32 exponent field. -/
def Obligations.PackStageByExponentField : Prop :=
  ∀ b : Single,
    let s : BitVec 16 := (b.extractLsb' 31 1).setWidth 16 <<< 15
    let e := (b.extractLsb' 23 8).toNat
    let m : BitVec 23 := b.extractLsb' 0 23
    let top : BitVec 16 := (b.extractLsb' 13 10).setWidth 16
    let h := pack32 Tables.filled b
    (e ≤ 102 → h = s) ∧
      (103 ≤ e ∧ e ≤ 112 → h = s ||| BitVec.ofNat 16 ((2 ^ 23 ||| m.toNat) >>> (126 - e))) ∧
      (113 ≤ e ∧ e ≤ 142 → h = s ||| BitVec.ofNat 16 ((e - 112) <<< 10) ||| top) ∧
      (143 ≤ e ∧ e ≤ 254 → h = s ||| 0x7C00#16) ∧
      (e = 255 → h = s ||| 0x7C00#16 ||| top)

/-- Spec 41 R119: the truncation law of PACK32. -/
def Obligations.PackStageTruncates : Prop :=
  ∀ b : Single, (class32 b).isNan = false →
    (class32 b = .infinity → pack32 Tables.filled b = ((sign32 b).setWidth 16 <<< 15) ||| 0x7C00#16) ∧
      (class32 b ≠ .infinity → IsTruncation (sign32 b) (finiteMag32 b) (pack32 Tables.filled b) ∧
        (65504 ≤ finiteMag32 b → finiteMag32 b < 65536 →
          pack32 Tables.filled b = ((sign32 b).setWidth 16 <<< 15) ||| 0x7BFF#16))

/-- Spec 42 R132: UNPACK32's addition never carries out of bit 31; the largest sum is 0xFFFFE000, for h = 0xFFFF. -/
def Obligations.UnpackAdditionNeverCarriesOut : Prop :=
  (∀ h : Half,
    let sum := (Tables.filled.readMantissa (mantIdxOf Tables.filled h)).toNat +
      (Tables.filled.readExponent (expIdxOf h)).toNat
    sum ≤ 0xFFFFE000 ∧ (unpack32 Tables.filled h).toNat = sum) ∧
    unpack32 Tables.filled 0xFFFF#16 = 0xFFFFE000#32

/-- Spec 42 R133: UNPACK32 by class; it is exact. `p` is ⌊log2 m16⌋. -/
def Obligations.UnpackStageByClass : Prop :=
  ∀ h : Half,
    let s : BitVec 32 := (h.extractLsb' 15 1).setWidth 32 <<< 31
    let e := (h.extractLsb' 10 5).toNat
    let m := (h.extractLsb' 0 10).toNat
    let bits := unpack32 Tables.filled h
    value32 bits = value16 h ∧
      (e = 0 → m = 0 → bits = s) ∧
      (e = 0 → m ≠ 0 → ∀ p : Nat, 2 ^ p ≤ m → m < 2 ^ (p + 1) →
        bits = s ||| BitVec.ofNat 32 ((p + 103) <<< 23) ||| BitVec.ofNat 32 ((m <<< (23 - p)) &&& 0x7FFFFF)) ∧
      (1 ≤ e ∧ e ≤ 30 → bits = s ||| BitVec.ofNat 32 ((e + 112) <<< 23) ||| BitVec.ofNat 32 (m <<< 13)) ∧
      (e = 31 → m = 0 → bits = s ||| 0x7F800000#32) ∧
      (e = 31 → m ≠ 0 → bits = s ||| 0x7F800000#32 ||| BitVec.ofNat 32 (m <<< 13) ∧
        bits.getLsbD 22 = h.getLsbD 9)

/-- Spec 42 R134: UNPACK32 gives no binary32 subnormal; its smallest nonzero magnitude is 2^-24, from h = 0x0001, and
that is a binary32 normal. -/
def Obligations.UnpackStageGivesNoSubnormal : Prop :=
  (∀ h : Half, class32 (unpack32 Tables.filled h) ≠ .denormal ∧
    (exp16 h ≠ 31#5 → finiteMag32 (unpack32 Tables.filled h) ≠ 0 →
      (2 : ℚ) ^ (-24 : ℤ) ≤ finiteMag32 (unpack32 Tables.filled h))) ∧
    unpack32 Tables.filled 0x0001#16 = 0x33800000#32 ∧ class32 0x33800000#32 = .normal ∧
    finiteMag32 0x33800000#32 = (2 : ℚ) ^ (-24 : ℤ)

/-! ### NARROW and WIDEN -/

/-- Spec 41 R112, R114: NARROW of infinities, zeros, binary64 subnormals and NaNs. -/
def Obligations.NarrowOfSpecialOperands : Prop :=
  ∀ (c : Config) (x : Double),
    let s : BitVec 32 := (x.extractLsb' 63 1).setWidth 32 <<< 31
    let e := (x.extractLsb' 52 11).toNat
    let f : BitVec 52 := x.extractLsb' 0 52
    let p : BitVec 32 := (f.extractLsb' 29 23).setWidth 32
    (e = 2047 → f = 0#52 → narrow c x = s ||| 0x7F800000#32) ∧
      (e = 0 → narrow c x = s) ∧
      (e = 2047 → f ≠ 0#52 → c.nanQuiet = true →
        narrow c x = s ||| 0x7FC00000#32 ||| (f.extractLsb' 29 22).setWidth 32) ∧
      (e = 2047 → f ≠ 0#52 → c.nanQuiet = false →
        narrow c x = s ||| 0x7F800000#32 ||| (if p = 0#32 then 0x400000#32 else p))

/-- Spec 41 R113: NARROW of a normal operand with a binary32 normal or overflow result, and what it says of magnitudes
of at least (2 - 2^-24) × 2^127. -/
def Obligations.NarrowOfNormalOperands : Prop :=
  ∀ (c : Config) (x : Double),
    let s : BitVec 32 := (x.extractLsb' 63 1).setWidth 32 <<< 31
    let field := (x.extractLsb' 52 11).toNat
    let e : Int := (field : Int) - 1023
    let f : BitVec 52 := x.extractLsb' 0 52
    let t := (field - 896) * 2 ^ 23 + f.toNat / 2 ^ 29
    let r := f.toNat % 2 ^ 29
    1 ≤ field → field ≤ 2046 →
      (127 < e → narrow c x = s ||| (if c.narrowRnd = .rne then 0x7F800000#32 else 0x7F7FFFFF#32)) ∧
        (-126 ≤ e → e ≤ 127 → narrow c x = s ||| BitVec.ofNat 32
          (if c.narrowRnd = .rne ∧ (2 ^ 28 < r ∨ (r = 2 ^ 28 ∧ t % 2 = 1)) then t + 1 else t)) ∧
        ((2 - (2 : ℚ) ^ (-24 : ℤ)) * 2 ^ 127 ≤ finiteMag64 x →
          narrow c x = s ||| (if c.narrowRnd = .rne then 0x7F800000#32 else 0x7F7FFFFF#32) ∧
            packFunction c Tables.filled x = ((x.extractLsb' 63 1).setWidth 16 <<< 15) ||| 0x7C00#16)

/-- Spec 41 R115: NARROW of a normal operand below the binary32 normals; its exponent field is at most 1, so PACK gives
a signed zero. -/
def Obligations.NarrowOfTinyOperands : Prop :=
  ∀ (c : Config) (x : Double),
    let s : BitVec 32 := (x.extractLsb' 63 1).setWidth 32 <<< 31
    let field := (x.extractLsb' 52 11).toNat
    let m := 2 ^ 52 + (x.extractLsb' 0 52).toNat
    let n := 926 - field
    let keep := m / 2 ^ n
    let r := m % 2 ^ n
    1 ≤ field → field ≤ 896 →
      30 ≤ n ∧
        narrow c x = s ||| BitVec.ofNat 32
          (if c.narrowRnd = .rne ∧ (2 ^ (n - 1) < r ∨ (r = 2 ^ (n - 1) ∧ keep % 2 = 1)) then keep + 1 else keep) ∧
        (exp32 (narrow c x)).toNat ≤ 1 ∧
        packFunction c Tables.filled x = (x.extractLsb' 63 1).setWidth 16 <<< 15

/-- Spec 41 R111 to R115 with 93 GK3: under RNE, a finite result of NARROW has the operand's sign and is a binary32
number nearest the operand, the even one where two are equally near. -/
def Obligations.NarrowRoundsToNearestEven : Prop :=
  ∀ (c : Config) (x : Double), c.narrowRnd = .rne → exp64 x ≠ 2047#11 →
    sign32 (narrow c x) = sign64 x ∧
      (exp32 (narrow c x) ≠ 255#8 →
        let v := signFactor (sign64 x) * finiteMag64 x
        let near := signFactor (sign32 (narrow c x)) * finiteMag32 (narrow c x)
        ∀ b : Single, exp32 b ≠ 255#8 →
          let other := signFactor (sign32 b) * finiteMag32 b
          |near - v| ≤ |other - v| ∧
            (|near - v| = |other - v| → other ≠ near → (narrow c x).getLsbD 0 = false))

/-- Spec 41 R111 to R115: under RTZ, NARROW of a finite operand is the largest binary32 magnitude not above the
operand's, with its sign. -/
def Obligations.NarrowTowardZeroTruncates : Prop :=
  ∀ (c : Config) (x : Double), c.narrowRnd = .rtz → exp64 x ≠ 2047#11 →
    sign32 (narrow c x) = sign64 x ∧ exp32 (narrow c x) ≠ 255#8 ∧ finiteMag32 (narrow c x) ≤ finiteMag64 x ∧
      ∀ b : Single, exp32 b ≠ 255#8 → finiteMag32 b ≤ finiteMag64 x → finiteMag32 b ≤ finiteMag32 (narrow c x)

/-- Spec 42 R135: WIDEN case by case; `p` is ⌊log2 m⌋. -/
def Obligations.WidenByCase : Prop :=
  ∀ (c : Config) (b : Single),
    let s : BitVec 64 := (b.extractLsb' 31 1).setWidth 64 <<< 63
    let e := (b.extractLsb' 23 8).toNat
    let m := (b.extractLsb' 0 23).toNat
    (e = 255 → m = 0 → widen c b = s ||| 0x7FF#64 <<< 52) ∧
      (e = 255 → m ≠ 0 → widen c b = s ||| 0x7FF#64 <<< 52 ||| BitVec.ofNat 64 (m <<< 29) |||
        (if c.nanQuiet then 1#64 <<< 51 else 0#64)) ∧
      (e = 0 → m = 0 → widen c b = s) ∧
      (e = 0 → m ≠ 0 → ∀ p : Nat, 2 ^ p ≤ m → m < 2 ^ (p + 1) →
        widen c b = s ||| BitVec.ofNat 64 ((p + 874) <<< 52) |||
          BitVec.ofNat 64 ((m <<< (52 - p)) % 2 ^ 52)) ∧
      (1 ≤ e ∧ e ≤ 254 → widen c b = s ||| BitVec.ofNat 64 ((e + 896) <<< 52) ||| BitVec.ofNat 64 (m <<< 29))

/-- Spec 42 R135 with 93 GK3: WIDEN keeps the value of every binary32 pattern, binary32 subnormals included, and keeps
a NaN a NaN; it keeps the sign. -/
def Obligations.WidenIsExact : Prop :=
  ∀ (c : Config) (b : Single), value64 (widen c b) = value32 b ∧ sign64 (widen c b) = sign32 b

/-! ### Laws of the two conversions -/

/-- Spec 41 R120: under RTZ, PACK(x) is the truncation of x itself. -/
def Obligations.PackTowardZeroTruncatesOperand : Prop :=
  ∀ (c : Config) (x : Double), c.narrowRnd = .rtz → exp64 x ≠ 2047#11 →
    IsTruncation (sign64 x) (finiteMag64 x) (packFunction c Tables.filled x)

/-- Spec 41 R121: which NaNs stay NaNs through the table stage and through PACK. -/
def Obligations.PackOfNans : Prop :=
  (∀ b : Single, exp32 b = 255#8 → man32 b ≠ 0#23 →
    (b.extractLsb' 13 10 = 0#10 ↔ 1 ≤ (man32 b).toNat ∧ (man32 b).toNat ≤ 8191) ∧
      (b.extractLsb' 13 10 = 0#10 → pack32 Tables.filled b = ((sign32 b).setWidth 16 <<< 15) ||| 0x7C00#16) ∧
      (b.extractLsb' 13 10 ≠ 0#10 → (class16 (pack32 Tables.filled b)).isNan = true)) ∧
    ∀ (c : Config) (x : Double), (class64 x).isNan = true →
      (c.nanQuiet = true →
        packFunction c Tables.filled x =
            ((sign64 x).setWidth 16 <<< 15) ||| 0x7E00#16 ||| ((frac64 x).extractLsb' 42 9).setWidth 16 ∧
          class16 (packFunction c Tables.filled x) = .quietNan) ∧
      (c.nanQuiet = false → (frac64 x).extractLsb' 42 10 = 0#10 → (frac64 x).extractLsb' 29 23 ≠ 0#23 →
        packFunction c Tables.filled x = ((sign64 x).setWidth 16 <<< 15) ||| 0x7C00#16)

/-- Spec 41 R122: PACK is monotone in real order, infinities included; a NaN is not ordered. -/
def Obligations.PackIsMonotone : Prop :=
  ∀ (c : Config) (x y : Double), (value64 x).le (value64 y) →
    ord16 (packFunction c Tables.filled x) ≤ ord16 (packFunction c Tables.filled y)

/-- Spec 42 R130, R133, R135: UNPACK keeps the value of every binary16 pattern, and keeps a NaN a NaN; it keeps the
sign. -/
def Obligations.UnpackIsExact : Prop :=
  ∀ (c : Config) (h : Half), value64 (unpackFunction c Tables.filled h) = value16 h ∧
    sign64 (unpackFunction c Tables.filled h) = sign16 h

/-- Spec 42 R137: the round trip. -/
def Obligations.PackOfUnpackRoundTrips : Prop :=
  ∀ (c : Config) (h : Half),
    let back := packFunction c Tables.filled (unpackFunction c Tables.filled h)
    (class16 h ≠ .signallingNan → back = h) ∧
      (class16 h = .signallingNan → c.nanQuiet = true → back = h ||| 0x0200#16) ∧
      (class16 h = .signallingNan → c.nanQuiet = false → back = h) ∧
      (class16 h = .signallingNan ↔ exp16 h = 31#5 ∧ 1 ≤ (man16 h).toNat ∧ (man16 h).toNat ≤ 511)

/-- Spec 42 R138: a NaN comes back a NaN under the default, and which NaNs do not under the other setting. -/
def Obligations.NansPropagateWhenQuieted : Prop :=
  ∀ (c : Config) (x : Double), (class64 x).isNan = true →
    (c.nanQuiet = true →
      (class64 (unpackFunction c Tables.filled (packFunction c Tables.filled x))).isNan = true) ∧
    (c.nanQuiet = false → (frac64 x).extractLsb' 42 10 = 0#10 → (frac64 x).extractLsb' 29 23 ≠ 0#23 →
      class16 (packFunction c Tables.filled x) = .infinity ∧
        class64 (unpackFunction c Tables.filled (packFunction c Tables.filled x)) = .infinity)

/-- Spec 42 R139: sign symmetry of UNPACK, with the facts it rests on. -/
def Obligations.UnpackIsSignSymmetric : Prop :=
  (∀ (c : Config) (h : Half), unpackFunction c Tables.filled (h ^^^ 0x8000#16) =
      unpackFunction c Tables.filled h ^^^ 0x8000000000000000#64) ∧
    (∀ h : Half, Tables.filled.readOffset (expIdxOf (h ^^^ 0x8000#16)) = Tables.filled.readOffset (expIdxOf h) ∧
      mantIdxOf Tables.filled (h ^^^ 0x8000#16) = mantIdxOf Tables.filled h) ∧
    ∀ i : Nat, i < 32 → Tables.filled.readExponent (BitVec.ofNat 6 (i + 32)) =
      Tables.filled.readExponent (BitVec.ofNat 6 i) + 0x80000000#32

/-! ### The machine as a whole -/

/-- The invariant holds right after reset, for every choice of the parameters, whatever the free contents are. -/
def Obligations.ResetMeetsTheInvariant : Prop :=
  State.reset = State.resetOf Config.default ∧ ∀ c : Config, (State.resetOf c).Inv

/-- Every step keeps the invariant: canonical tables, valid tables hold the contents of spec 40 (spec 70 R173), and the
fill has written what lies behind it (spec 70 R172). -/
def Obligations.StepKeepsTheInvariant : Prop :=
  ∀ s t : State, s.Inv → step s = .next t → t.Inv

/-- Spec 10 R29, 70 R171, R172: what reset leaves. The model's choices: `tables_ready` is 0 under ROM too, where the bit
does not exist (log entry 16), no port is driven, nothing is presented and no response stands (log entries 6, 7, 8). -/
def Obligations.ResetLeavesTheseValues : Prop :=
  ∀ c : Config, (State.resetOf c).tablesReady = false ∧
    ((State.resetOf c).tablesValid = true ↔ c.tableImpl = .rom) ∧
    (c.tableImpl = .rom →
      (∀ key, (State.resetOf c).tables.readBase key = baseContents key.toNat ∧
        (State.resetOf c).tables.readShift key = shiftContents key.toNat) ∧
      (∀ idx, (State.resetOf c).tables.readMantissa idx = mantissaContents idx.toNat) ∧
      (∀ idx, (State.resetOf c).tables.readOffset idx = offsetContents idx.toNat ∧
        (State.resetOf c).tables.readExponent idx = exponentContents idx.toNat)) ∧
    (State.resetOf c).ports = ⟨none, none, none, none, none⟩ ∧ (State.resetOf c).inputs = [] ∧
    (State.resetOf c).responses = []

/-- Spec 00 R13, 60 R150: with admitted requests and driven operands no step stops, and the next state is such a state
again. -/
def Obligations.SafeStatesNeverStop : Prop :=
  ∀ s : State, s.Safe → ∃ t, step s = .next t ∧ t.Safe

/-- Spec 10 R20, 20 R48: any list of admitted, driven requests gives each one its lone result, the function of its own
operand, in the order presented; the tables stay as they are. The model's choices: one list of requests, oldest first
(log entry 6), and one of responses (log entry 7); requests on different ports have one order too (log entry 24,
DEDUCED). -/
def Obligations.EachRequestGetsItsLoneResult : Prop :=
  ∀ s : State, s.Safe → s.tablesValid = true → (∀ p ∈ s.inputs, p ≠ .rst) →
    ∃ t, runSteps s.inputs.length s = .next t ∧ t.inputs = [] ∧
      t.responses = s.responses ++ responsesTo s.cfg s.inputs ∧ t.tables = s.tables

/-- Spec 70 R172: under INIT the fill ends: within 2049 steps `tables_ready` is 1 and every table holds its contents,
and what was presented is still presented, with no response given meanwhile. The model's choices: the bound (log entry
13), the fill goes on under a held request, which stays presented (log entry 14), or with nothing presented (log entry
21), and no port changes meanwhile (log entry 26). -/
def Obligations.FillEndsWithTablesReady : Prop :=
  ∀ s : State, s.Safe → s.cfg.tableImpl = .init → s.tablesReady = false → s.inputs.head? ≠ some .rst →
    ∃ n ≤ 2049, ∃ t, runSteps n s = .next t ∧ t.tablesReady = true ∧ t.tables = Tables.filled ∧
      t.inputs = s.inputs ∧ t.responses = s.responses ∧ t.ports = s.ports

/-- Spec 10 R28, 70 R172: `tables_ready` "stays set until the next reset". -/
def Obligations.TablesReadyStaysSet : Prop :=
  ∀ s t : State, s.cfg.tableImpl = .init → s.tablesReady = true → s.inputs.head? ≠ some .rst → step s = .next t →
    t.tablesReady = true

/-- Spec 70 R170 to R172: the reset input. Under INIT it clears `tables_ready`, the table contents become unspecified,
and the fill starts again. The model's choices: a reset presented under ROM, where there is no such input, changes
nothing, and under INIT ports and responses stay as they are (log entry 15); the fill starts at index 0 (log entry 13);
unspecified contents are free values, drawn by a counter (log entry 12). -/
def Obligations.ResetInputClearsTablesReady : Prop :=
  ∀ (s : State) (rest : List Input), s.inputs = .rst :: rest →
    (s.cfg.tableImpl = .rom → step s = .next { s with inputs := rest }) ∧
      (s.cfg.tableImpl = .init → ∃ t, step s = .next t ∧ t.tablesReady = false ∧
        t.tables = Tables.unfilled s.freeDraws ∧ t.freeDraws = s.freeDraws + 1 ∧ t.fillNext = 0 ∧
        t.inputs = rest ∧ t.ports = s.ports ∧ t.responses = s.responses ∧ t.cfg = s.cfg)

/-- Spec 10 R24: no step changes the parameters. -/
def Obligations.NoStepChangesTheParameters : Prop :=
  ∀ s t : State, step s = .next t → t.cfg = s.cfg

/-- Spec 70 R177: "No rule of this spec depends on `P_LATENCY`": changing it changes no step but itself. -/
def Obligations.LatencyChangesNoResult : Prop :=
  ∀ (s : State) (n : Nat), let retimed := fun t : State => { t with cfg := { t.cfg with latency := n } }
    step (retimed s) = mapNext retimed (step s)

/-- Spec 10 R28: under ROM the block has no hidden state: `tables_ready` and the fill's progress change no step but
themselves. -/
def Obligations.RomHasNoHiddenState : Prop :=
  ∀ (s : State) (ready : Bool) (k d : Nat), s.cfg.tableImpl = .rom →
    let hidden := fun t : State => { t with tablesReady := ready, fillNext := k, freeDraws := d }
    step (hidden s) = mapNext hidden (step s)

/-- Spec 00 R13: a request that completes has one response, its result; a step adds at most one. The model's choices: only
the oldest presentation completes (log entry 6, DESIGN CHOICE), and a response once given stays listed, in the order
given (log entry 7, DESIGN CHOICE). -/
def Obligations.StepGivesAtMostOneResponse : Prop :=
  ∀ s t : State, step s = .next t →
    t.responses = s.responses ∨
      ∃ r i, s.inputs = .request r :: t.inputs ∧ decode r.word = .ok i ∧
        ∃ p, t.responses = s.responses ++ [p]

/-! ### Text of transactions -/

/-- Spec 30 R73: an instruction's text reads back as its line, and the line names the instruction's request word. -/
def Obligations.TextReadsBackAsItsWord : Prop :=
  ∀ (i : Instr) (earlier : List Response),
    readLine (Instr.text i) = some (.core (CoreLine.ofInstr i)) ∧ (CoreLine.ofInstr i).word earlier = some (encode i)

/-- Spec 30 R74: RTRIP expands to an UNPACK and a PACK of its response, whatever stands before and after it, and its
second line's word is the PACK of what the first responded. -/
def Obligations.RtripExpandsToUnpackAndPack : Prop :=
  ∀ (h : Half) (n : Nat) (rest : List SourceLine) (earlier : List Response) (x : Double),
    expandFrom n (.rtrip h :: rest) =
        CoreLine.ofInstr (.unpack h) :: ⟨.pack, .response n⟩ :: expandFrom (n + 2) rest ∧
      (earlier.length + 1 = n → (CoreLine.mk .pack (.response n)).word (earlier ++ [.unpack x]) = some (encode (.pack x)))
end

