-- ==== Sys2Proof/Laws/Decode.lean ====
section
/-! SUPPORT. The fields of a request word: what `wordOf` puts in, `opField` and `operandField` take out. -/

namespace Sys2Proof

theorem wordOf_getLsbD (op : BitVec 3) (operand : BitVec 64) (k : Nat) :
    (wordOf op operand).getLsbD k = if k < 64 then operand.getLsbD k else op.getLsbD (k - 64) := by
  have := BitVec.getLsbD_append (x := op) (y := operand) (i := k)
  simpa [wordOf] using this

@[simp] theorem opField_wordOf (op : BitVec 3) (operand : BitVec 64) : opField (wordOf op operand) = op := by
  refine BitVec.eq_of_getLsbD_eq fun k hk => ?_
  simp [opField, wordOf_getLsbD, hk]

@[simp] theorem operandField_wordOf (op : BitVec 3) (operand : BitVec 64) :
    operandField (wordOf op operand) = operand := by
  refine BitVec.eq_of_getLsbD_eq fun k hk => ?_
  simp [operandField, wordOf_getLsbD, hk]

/-- A request word is its two fields. -/
theorem wordOf_fields (q : ReqWord) : wordOf (opField q) (operandField q) = q := by
  refine BitVec.eq_of_getLsbD_eq fun k hk => ?_
  rw [wordOf_getLsbD]
  split
  · rename_i h; simp [operandField, h]
  · rename_i h
    have h3 : k - 64 < 3 := by omega
    have h4 : 64 + (k - 64) = k := by omega
    simp [opField, h3, h4]

/-- An operand fits a field when no bit above the field is 1. -/
theorem operandFits_iff {w : Nat} {operand : BitVec 64} :
    operandFits w operand = true ↔ ∀ k, w ≤ k → operand.getLsbD k = false := by
  simp only [operandFits, beq_iff_eq]
  constructor
  · intro h k hk
    have := congrArg (fun v => v.getLsbD (k - w)) h
    simpa [show w + (k - w) = k by omega] using this
  · intro h
    refine BitVec.eq_of_getLsbD_eq fun k _ => ?_
    simp [h (w + k) (by omega)]

end Sys2Proof
end

