-- ==== Sys2Proof/Laws/Formats.lean ====
section
/-! SUPPORT. Fields and assembled patterns as numbers: each accessor's value by division and remainder, so that a claim
about bits becomes arithmetic. -/

namespace Sys2Proof.Machine

/-- A field as a number. -/
theorem extractLsb'_toNat_div {w : Nat} (v : BitVec w) (start len : Nat) :
    (v.extractLsb' start len).toNat = v.toNat / 2 ^ start % 2 ^ len := by
  simp [BitVec.extractLsb'_toNat, Nat.shiftRight_eq_div_pow]

/-! ### binary16 -/

theorem sign16_toNat (h : Half) : (sign16 h).toNat = h.toNat / 2 ^ 15 := by
  rw [sign16, extractLsb'_toNat_div]; have := h.isLt; omega
theorem exp16_toNat (h : Half) : (exp16 h).toNat = h.toNat / 2 ^ 10 % 2 ^ 5 := extractLsb'_toNat_div h 10 5
theorem man16_toNat (h : Half) : (man16 h).toNat = h.toNat % 2 ^ 10 := by
  rw [man16, extractLsb'_toNat_div]; omega
theorem expIdxOf_toNat (h : Half) : (expIdxOf h).toNat = h.toNat / 2 ^ 10 := by
  rw [expIdxOf, extractLsb'_toNat_div]; have := h.isLt; omega
/-- `exp_idx` is the sign and E16 (spec 30 R66). -/
theorem expIdxOf_toNat_fields (h : Half) : (expIdxOf h).toNat = (sign16 h).toNat * 2 ^ 5 + (exp16 h).toNat := by
  rw [expIdxOf_toNat, sign16_toNat, exp16_toNat]; have := h.isLt; omega
theorem half_toNat_fields (h : Half) :
    h.toNat = (sign16 h).toNat * 2 ^ 15 + (exp16 h).toNat * 2 ^ 10 + (man16 h).toNat := by
  rw [sign16_toNat, exp16_toNat, man16_toNat]; have := h.isLt; omega

/-! ### binary32 -/

theorem sign32_toNat (b : Single) : (sign32 b).toNat = b.toNat / 2 ^ 31 := by
  rw [sign32, extractLsb'_toNat_div]; have := b.isLt; omega
theorem exp32_toNat (b : Single) : (exp32 b).toNat = b.toNat / 2 ^ 23 % 2 ^ 8 := extractLsb'_toNat_div b 23 8
theorem man32_toNat (b : Single) : (man32 b).toNat = b.toNat % 2 ^ 23 := by
  rw [man32, extractLsb'_toNat_div]; omega
theorem keyOf_toNat (b : Single) : (keyOf b).toNat = b.toNat / 2 ^ 23 := by
  rw [keyOf, extractLsb'_toNat_div]; have := b.isLt; omega
/-- `key` is the sign and E32 (spec 30 R64). -/
theorem keyOf_toNat_fields (b : Single) : (keyOf b).toNat = (sign32 b).toNat * 2 ^ 8 + (exp32 b).toNat := by
  rw [keyOf_toNat, sign32_toNat, exp32_toNat]; have := b.isLt; omega
theorem single_toNat_fields (b : Single) :
    b.toNat = (sign32 b).toNat * 2 ^ 31 + (exp32 b).toNat * 2 ^ 23 + (man32 b).toNat := by
  rw [sign32_toNat, exp32_toNat, man32_toNat]; have := b.isLt; omega

theorem withSign32_toNat (s : BitVec 1) (m : BitVec 31) :
    (withSign32 s m).toNat = s.toNat * 2 ^ 31 + m.toNat := by
  have h := BitVec.toNat_append s m
  rw [Nat.shiftLeft_eq, Nat.mul_comm, ← Nat.two_pow_add_eq_or_of_lt m.isLt] at h
  rw [withSign32, Nat.mul_comm]
  exact h

/-! ### binary64 -/

theorem sign64_toNat (x : Double) : (sign64 x).toNat = x.toNat / 2 ^ 63 := by
  rw [sign64, extractLsb'_toNat_div]; have := x.isLt; omega
theorem exp64_toNat (x : Double) : (exp64 x).toNat = x.toNat / 2 ^ 52 % 2 ^ 11 := extractLsb'_toNat_div x 52 11
theorem frac64_toNat (x : Double) : (frac64 x).toNat = x.toNat % 2 ^ 52 := by
  rw [frac64, extractLsb'_toNat_div]; omega
theorem double_toNat_fields (x : Double) :
    x.toNat = (sign64 x).toNat * 2 ^ 63 + (exp64 x).toNat * 2 ^ 52 + (frac64 x).toNat := by
  rw [sign64_toNat, exp64_toNat, frac64_toNat]; have := x.isLt; omega

theorem double64_toNat (s : BitVec 1) (e : BitVec 11) (f : BitVec 52) :
    (double64 s e f).toNat = s.toNat * 2 ^ 63 + e.toNat * 2 ^ 52 + f.toNat := by
  have h1 := BitVec.toNat_append (s ++ e) f
  have h2 := BitVec.toNat_append s e
  rw [Nat.shiftLeft_eq, Nat.mul_comm, ← Nat.two_pow_add_eq_or_of_lt f.isLt] at h1
  rw [Nat.shiftLeft_eq, Nat.mul_comm, ← Nat.two_pow_add_eq_or_of_lt e.isLt] at h2
  have h3 : (double64 s e f).toNat = (s ++ e ++ f).toNat := rfl
  rw [h3, h1, h2]
  ring

/-! ### The table stages as numbers -/

/-- PACK32's sum modulo 2^16 (spec 41 R116). -/
theorem pack32_toNat (t : Tables) (b : Single) :
    (pack32 t b).toNat =
      ((t.readBase (keyOf b)).toNat + (man32 b).toNat >>> (t.readShift (keyOf b)).toNat) % 2 ^ 16 := by
  have h1 := (t.readBase (keyOf b)).isLt
  have h2 : (man32 b).toNat >>> (t.readShift (keyOf b)).toNat ≤ (man32 b).toNat := Nat.shiftRight_le _ _
  have h3 := (man32 b).isLt
  simp only [pack32, BitVec.toNat_setWidth, BitVec.toNat_add, BitVec.toNat_ushiftRight]
  rw [Nat.mod_eq_of_lt (show (t.readBase (keyOf b)).toNat < 2 ^ 32 by omega),
    Nat.mod_eq_of_lt (show (man32 b).toNat < 2 ^ 32 by omega),
    Nat.mod_eq_of_lt (show (t.readBase (keyOf b)).toNat +
      (man32 b).toNat >>> (t.readShift (keyOf b)).toNat < 2 ^ 32 by omega)]

/-- UNPACK32's sum modulo 2^32 (spec 42 R131). -/
theorem unpack32_toNat (t : Tables) (h : Half) :
    (unpack32 t h).toNat =
      ((t.readMantissa (mantIdxOf t h)).toNat + (t.readExponent (expIdxOf h)).toNat) % 2 ^ 32 := by
  simp [unpack32, BitVec.toNat_add]

/-- The MANTISSA index as it stands on the 11-bit port (spec 42 R131). -/
theorem mantIdxOf_toNat (t : Tables) (h : Half) :
    (mantIdxOf t h).toNat = ((t.readOffset (expIdxOf h)).toNat + (man16 h).toNat) % 2 ^ 11 := by
  have := (man16 h).isLt
  simp only [mantIdxOf, BitVec.toNat_setWidth, BitVec.toNat_add]
  omega

end Sys2Proof.Machine
end

