-- ==== Sys2Proof/Laws/PerInstr.lean ====
section
/-! SUPPORT. One lemma per instruction: its encoding is a word of its row of spec/opcode_table.json, and its operand
lies in its field. -/

namespace Sys2Proof.Laws.EncodesItsRow

/-- The instruction's word has the row's fixed bits, and its operand is well-formed. -/
def Statement (i : Instr) : Prop :=
  i.wellFormed = true ∧ ∃ r ∈ opcodeRows, r.mnemonic = i.mnemonic ∧ r.hits (encode i) = true

theorem hits_of_bits {r : OpcodeRow} {op : BitVec 3} {operand : BitVec 64}
    (h : ∀ k < 67, ((if k < 64 then operand.getLsbD k else op.getLsbD (k - 64)) && r.mask.getLsbD k)
      = r.matchBits.getLsbD k) : r.hits (wordOf op operand) = true := by
  simp only [OpcodeRow.hits, beq_iff_eq]
  refine BitVec.eq_of_getLsbD_eq fun k hk => ?_
  rw [BitVec.getLsbD_and, wordOf_getLsbD]
  exact h k hk

theorem pack (x : Double) : Statement (.pack x) := by
  refine ⟨operandFits_iff.2 fun k hk => BitVec.getLsbD_of_ge _ _ hk, ⟨.pack, _, _⟩, by simp [opcodeRows]; exact ⟨rfl, rfl⟩,
    rfl, hits_of_bits fun k hk => ?_⟩
  interval_cases k <;> simp [Instr.operand, Instr.mnemonic, Mnemonic.op]

theorem unpack (h : Half) : Statement (.unpack h) := by
  refine ⟨operandFits_iff.2 fun k hk => by simp [Instr.operand, BitVec.getLsbD_of_ge h k hk], ⟨.unpack, _, _⟩, by simp [opcodeRows]; exact ⟨rfl, rfl⟩,
    rfl, hits_of_bits fun k hk => ?_⟩
  interval_cases k <;> simp [Instr.operand, Instr.mnemonic, Mnemonic.op]

theorem lutBs (key : Key) : Statement (.lutBs key) := by
  refine ⟨operandFits_iff.2 fun k hk => by simp [Instr.operand, BitVec.getLsbD_of_ge key k hk], ⟨.lutBs, _, _⟩, by simp [opcodeRows]; exact ⟨rfl, rfl⟩,
    rfl, hits_of_bits fun k hk => ?_⟩
  interval_cases k <;> simp [Instr.operand, Instr.mnemonic, Mnemonic.op]

theorem lutOe (idx : ExpIdx) : Statement (.lutOe idx) := by
  refine ⟨operandFits_iff.2 fun k hk => by simp [Instr.operand, BitVec.getLsbD_of_ge idx k hk], ⟨.lutOe, _, _⟩, by simp [opcodeRows]; exact ⟨rfl, rfl⟩,
    rfl, hits_of_bits fun k hk => ?_⟩
  interval_cases k <;> simp [Instr.operand, Instr.mnemonic, Mnemonic.op]

theorem lutM (idx : MantIdx) : Statement (.lutM idx) := by
  refine ⟨operandFits_iff.2 fun k hk => by simp [Instr.operand, BitVec.getLsbD_of_ge idx k hk], ⟨.lutM, _, _⟩, by simp [opcodeRows]; exact ⟨rfl, rfl⟩,
    rfl, hits_of_bits fun k hk => ?_⟩
  interval_cases k <;> simp [Instr.operand, Instr.mnemonic, Mnemonic.op]

end Sys2Proof.Laws.EncodesItsRow
end

