-- ==== Sys2Proof/Laws/State.lean ====
section
/-! SUPPORT. One lemma per field of `State` per update, true by rfl; what reset, the fill and the idle step leave
unchanged. -/

namespace Sys2Proof.Machine

/-! ### drivePkX -/

@[simp] theorem State.drivePkX_cfg (s : State) (x : Double) : (s.drivePkX x).cfg = s.cfg := rfl
@[simp] theorem State.drivePkX_tables (s : State) (x : Double) : (s.drivePkX x).tables = s.tables := rfl
@[simp] theorem State.drivePkX_tablesReady (s : State) (x : Double) : (s.drivePkX x).tablesReady = s.tablesReady := rfl
@[simp] theorem State.drivePkX_fillNext (s : State) (x : Double) : (s.drivePkX x).fillNext = s.fillNext := rfl
@[simp] theorem State.drivePkX_freeDraws (s : State) (x : Double) : (s.drivePkX x).freeDraws = s.freeDraws := rfl
@[simp] theorem State.drivePkX_ports (s : State) (x : Double) : (s.drivePkX x).ports = { s.ports with pkX := some x } := rfl
@[simp] theorem State.drivePkX_inputs (s : State) (x : Double) : (s.drivePkX x).inputs = s.inputs := rfl
@[simp] theorem State.drivePkX_responses (s : State) (x : Double) : (s.drivePkX x).responses = s.responses := rfl
@[simp] theorem State.drivePkX_tablesValid (s : State) (x : Double) : (s.drivePkX x).tablesValid = s.tablesValid := rfl

/-! ### driveUpH -/

@[simp] theorem State.driveUpH_cfg (s : State) (h : Half) : (s.driveUpH h).cfg = s.cfg := rfl
@[simp] theorem State.driveUpH_tables (s : State) (h : Half) : (s.driveUpH h).tables = s.tables := rfl
@[simp] theorem State.driveUpH_tablesReady (s : State) (h : Half) : (s.driveUpH h).tablesReady = s.tablesReady := rfl
@[simp] theorem State.driveUpH_fillNext (s : State) (h : Half) : (s.driveUpH h).fillNext = s.fillNext := rfl
@[simp] theorem State.driveUpH_freeDraws (s : State) (h : Half) : (s.driveUpH h).freeDraws = s.freeDraws := rfl
@[simp] theorem State.driveUpH_ports (s : State) (h : Half) : (s.driveUpH h).ports = { s.ports with upH := some h } := rfl
@[simp] theorem State.driveUpH_inputs (s : State) (h : Half) : (s.driveUpH h).inputs = s.inputs := rfl
@[simp] theorem State.driveUpH_responses (s : State) (h : Half) : (s.driveUpH h).responses = s.responses := rfl
@[simp] theorem State.driveUpH_tablesValid (s : State) (h : Half) : (s.driveUpH h).tablesValid = s.tablesValid := rfl

/-! ### driveBsKey -/

@[simp] theorem State.driveBsKey_cfg (s : State) (key : Key) : (s.driveBsKey key).cfg = s.cfg := rfl
@[simp] theorem State.driveBsKey_tables (s : State) (key : Key) : (s.driveBsKey key).tables = s.tables := rfl
@[simp] theorem State.driveBsKey_tablesReady (s : State) (key : Key) : (s.driveBsKey key).tablesReady = s.tablesReady := rfl
@[simp] theorem State.driveBsKey_fillNext (s : State) (key : Key) : (s.driveBsKey key).fillNext = s.fillNext := rfl
@[simp] theorem State.driveBsKey_freeDraws (s : State) (key : Key) : (s.driveBsKey key).freeDraws = s.freeDraws := rfl
@[simp] theorem State.driveBsKey_ports (s : State) (key : Key) : (s.driveBsKey key).ports = { s.ports with bsKey := some key } := rfl
@[simp] theorem State.driveBsKey_inputs (s : State) (key : Key) : (s.driveBsKey key).inputs = s.inputs := rfl
@[simp] theorem State.driveBsKey_responses (s : State) (key : Key) : (s.driveBsKey key).responses = s.responses := rfl
@[simp] theorem State.driveBsKey_tablesValid (s : State) (key : Key) : (s.driveBsKey key).tablesValid = s.tablesValid := rfl

/-! ### driveOeIdx -/

@[simp] theorem State.driveOeIdx_cfg (s : State) (idx : ExpIdx) : (s.driveOeIdx idx).cfg = s.cfg := rfl
@[simp] theorem State.driveOeIdx_tables (s : State) (idx : ExpIdx) : (s.driveOeIdx idx).tables = s.tables := rfl
@[simp] theorem State.driveOeIdx_tablesReady (s : State) (idx : ExpIdx) : (s.driveOeIdx idx).tablesReady = s.tablesReady := rfl
@[simp] theorem State.driveOeIdx_fillNext (s : State) (idx : ExpIdx) : (s.driveOeIdx idx).fillNext = s.fillNext := rfl
@[simp] theorem State.driveOeIdx_freeDraws (s : State) (idx : ExpIdx) : (s.driveOeIdx idx).freeDraws = s.freeDraws := rfl
@[simp] theorem State.driveOeIdx_ports (s : State) (idx : ExpIdx) : (s.driveOeIdx idx).ports = { s.ports with oeIdx := some idx } := rfl
@[simp] theorem State.driveOeIdx_inputs (s : State) (idx : ExpIdx) : (s.driveOeIdx idx).inputs = s.inputs := rfl
@[simp] theorem State.driveOeIdx_responses (s : State) (idx : ExpIdx) : (s.driveOeIdx idx).responses = s.responses := rfl
@[simp] theorem State.driveOeIdx_tablesValid (s : State) (idx : ExpIdx) : (s.driveOeIdx idx).tablesValid = s.tablesValid := rfl

/-! ### driveMIdx -/

@[simp] theorem State.driveMIdx_cfg (s : State) (idx : MantIdx) : (s.driveMIdx idx).cfg = s.cfg := rfl
@[simp] theorem State.driveMIdx_tables (s : State) (idx : MantIdx) : (s.driveMIdx idx).tables = s.tables := rfl
@[simp] theorem State.driveMIdx_tablesReady (s : State) (idx : MantIdx) : (s.driveMIdx idx).tablesReady = s.tablesReady := rfl
@[simp] theorem State.driveMIdx_fillNext (s : State) (idx : MantIdx) : (s.driveMIdx idx).fillNext = s.fillNext := rfl
@[simp] theorem State.driveMIdx_freeDraws (s : State) (idx : MantIdx) : (s.driveMIdx idx).freeDraws = s.freeDraws := rfl
@[simp] theorem State.driveMIdx_ports (s : State) (idx : MantIdx) : (s.driveMIdx idx).ports = { s.ports with mIdx := some idx } := rfl
@[simp] theorem State.driveMIdx_inputs (s : State) (idx : MantIdx) : (s.driveMIdx idx).inputs = s.inputs := rfl
@[simp] theorem State.driveMIdx_responses (s : State) (idx : MantIdx) : (s.driveMIdx idx).responses = s.responses := rfl
@[simp] theorem State.driveMIdx_tablesValid (s : State) (idx : MantIdx) : (s.driveMIdx idx).tablesValid = s.tablesValid := rfl

/-! ### respond -/

@[simp] theorem State.respond_cfg (s : State) (r : Response) : (s.respond r).cfg = s.cfg := rfl
@[simp] theorem State.respond_tables (s : State) (r : Response) : (s.respond r).tables = s.tables := rfl
@[simp] theorem State.respond_tablesReady (s : State) (r : Response) : (s.respond r).tablesReady = s.tablesReady := rfl
@[simp] theorem State.respond_fillNext (s : State) (r : Response) : (s.respond r).fillNext = s.fillNext := rfl
@[simp] theorem State.respond_freeDraws (s : State) (r : Response) : (s.respond r).freeDraws = s.freeDraws := rfl
@[simp] theorem State.respond_ports (s : State) (r : Response) : (s.respond r).ports = s.ports := rfl
@[simp] theorem State.respond_inputs (s : State) (r : Response) : (s.respond r).inputs = s.inputs.tail := rfl
@[simp] theorem State.respond_responses (s : State) (r : Response) : (s.respond r).responses = s.responses ++ [r] := rfl
@[simp] theorem State.respond_tablesValid (s : State) (r : Response) : (s.respond r).tablesValid = s.tablesValid := rfl

/-! ### present -/

@[simp] theorem State.present_cfg (s : State) (q : ReqWord) : (s.present q).cfg = s.cfg := rfl
@[simp] theorem State.present_tables (s : State) (q : ReqWord) : (s.present q).tables = s.tables := rfl
@[simp] theorem State.present_tablesReady (s : State) (q : ReqWord) : (s.present q).tablesReady = s.tablesReady := rfl
@[simp] theorem State.present_fillNext (s : State) (q : ReqWord) : (s.present q).fillNext = s.fillNext := rfl
@[simp] theorem State.present_freeDraws (s : State) (q : ReqWord) : (s.present q).freeDraws = s.freeDraws := rfl
@[simp] theorem State.present_ports (s : State) (q : ReqWord) : (s.present q).ports = s.ports := rfl
@[simp] theorem State.present_inputs (s : State) (q : ReqWord) : (s.present q).inputs = .request ⟨q, 0#64⟩ :: s.inputs.tail := rfl
@[simp] theorem State.present_responses (s : State) (q : ReqWord) : (s.present q).responses = s.responses := rfl
@[simp] theorem State.present_tablesValid (s : State) (q : ReqWord) : (s.present q).tablesValid = s.tablesValid := rfl

/-! ### fillStep -/

@[simp] theorem State.fillStep_cfg (s : State) : s.fillStep.cfg = s.cfg := by unfold State.fillStep; split <;> rfl
@[simp] theorem State.fillStep_freeDraws (s : State) : s.fillStep.freeDraws = s.freeDraws := by unfold State.fillStep; split <;> rfl
@[simp] theorem State.fillStep_ports (s : State) : s.fillStep.ports = s.ports := by unfold State.fillStep; split <;> rfl
@[simp] theorem State.fillStep_inputs (s : State) : s.fillStep.inputs = s.inputs := by unfold State.fillStep; split <;> rfl
@[simp] theorem State.fillStep_responses (s : State) : s.fillStep.responses = s.responses := by unfold State.fillStep; split <;> rfl

/-! ### idle -/

@[simp] theorem State.idle_cfg (s : State) : s.idle.cfg = s.cfg := by unfold State.idle; split <;> simp
@[simp] theorem State.idle_freeDraws (s : State) : s.idle.freeDraws = s.freeDraws := by unfold State.idle; split <;> simp
@[simp] theorem State.idle_ports (s : State) : s.idle.ports = s.ports := by unfold State.idle; split <;> simp
@[simp] theorem State.idle_inputs (s : State) : s.idle.inputs = s.inputs := by unfold State.idle; split <;> simp
@[simp] theorem State.idle_responses (s : State) : s.idle.responses = s.responses := by unfold State.idle; split <;> simp

/-! ### pullReset -/

@[simp] theorem State.pullReset_cfg (s : State) : s.pullReset.cfg = s.cfg := by unfold State.pullReset; split <;> rfl
@[simp] theorem State.pullReset_ports (s : State) : s.pullReset.ports = s.ports := by unfold State.pullReset; split <;> rfl
@[simp] theorem State.pullReset_responses (s : State) : s.pullReset.responses = s.responses := by unfold State.pullReset; split <;> rfl
@[simp] theorem State.pullReset_inputs (s : State) : s.pullReset.inputs = s.inputs.tail := by
  unfold State.pullReset; split <;> rfl

/-! ### Reset -/

@[simp] theorem State.resetOf_cfg (c : Config) : (State.resetOf c).cfg = c := rfl
@[simp] theorem State.resetOf_tablesReady (c : Config) : (State.resetOf c).tablesReady = false := rfl
@[simp] theorem State.resetOf_fillNext (c : Config) : (State.resetOf c).fillNext = 0 := rfl
@[simp] theorem State.resetOf_ports (c : Config) : (State.resetOf c).ports = ⟨none, none, none, none, none⟩ := rfl
@[simp] theorem State.resetOf_inputs (c : Config) : (State.resetOf c).inputs = [] := rfl
@[simp] theorem State.resetOf_responses (c : Config) : (State.resetOf c).responses = [] := rfl

/-! ### When the tables are valid -/

theorem State.tablesValid_rom {s : State} (h : s.cfg.tableImpl = .rom) : s.tablesValid = true := by
  simp [State.tablesValid, h]

theorem State.tablesValid_init {s : State} (h : s.cfg.tableImpl = .init) : s.tablesValid = s.tablesReady := by
  simp [State.tablesValid, h]

/-- Tables that are not valid are those of the INIT form before `tables_ready`. -/
theorem State.tablesValid_eq_false {s : State} :
    s.tablesValid = false ↔ s.cfg.tableImpl = .init ∧ s.tablesReady = false := by
  cases h : s.cfg.tableImpl <;> simp [State.tablesValid, h]

end Sys2Proof.Machine
end

