-- ==== Sys2Proof/Laws/Tables.lean ====
section
/-! SUPPORT. The table memory: what a read gives after a fill, and that every operation keeps the canonical form. -/

namespace Sys2Proof.Machine

variable {w : Nat}

/-! ### Reading -/

@[simp] theorem TableMem.read_nil (contents : Nat → BitVec w) (i : Nat) :
    TableMem.read contents [] i = contents i := rfl

/-- An index that is not listed reads as the contents. -/
theorem TableMem.read_of_not_listed {contents : Nat → BitVec w} {m : TableMem w} {i : Nat}
    (h : ∀ p ∈ m, p.1 ≠ i) : TableMem.read contents m i = contents i := by
  induction m with
  | nil => rfl
  | cons p m ih =>
    have hp : ¬ i = p.1 := fun e => h p (by simp) e.symm
    simp [TableMem.read, hp, ih fun q hq => h q (by simp [hq])]

/-- A filled entry reads as its contents. -/
theorem TableMem.read_fill_same (contents : Nat → BitVec w) (m : TableMem w) (i : Nat) :
    TableMem.read contents (m.fill i) i = contents i :=
  TableMem.read_of_not_listed (by simp [TableMem.fill])

/-- Filling one entry leaves every other entry as it was. -/
theorem TableMem.read_fill_other (contents : Nat → BitVec w) (m : TableMem w) {i j : Nat} (h : j ≠ i) :
    TableMem.read contents (m.fill i) j = TableMem.read contents m j := by
  induction m with
  | nil => rfl
  | cons p m ih =>
    by_cases hp : p.1 = i
    · have : ¬ j = p.1 := fun e => h (e.trans hp)
      simpa [TableMem.fill, hp, TableMem.read, h] using ih
    · have : TableMem.fill i (p :: m) = p :: TableMem.fill i m := by simp [TableMem.fill, hp]
      rw [this]; simp [TableMem.read, ih]

@[simp] theorem Tables.filled_readBase (key : Key) : Tables.filled.readBase key = baseContents key.toNat := rfl
@[simp] theorem Tables.filled_readShift (key : Key) : Tables.filled.readShift key = shiftContents key.toNat := rfl
@[simp] theorem Tables.filled_readMantissa (idx : MantIdx) :
    Tables.filled.readMantissa idx = mantissaContents idx.toNat := rfl
@[simp] theorem Tables.filled_readOffset (idx : ExpIdx) :
    Tables.filled.readOffset idx = offsetContents idx.toNat := rfl
@[simp] theorem Tables.filled_readExponent (idx : ExpIdx) :
    Tables.filled.readExponent idx = exponentContents idx.toNat := rfl

/-! ### The canonical form -/

theorem TableMem.wf_iff {size : Nat} {contents : Nat → BitVec w} {m : TableMem w} :
    m.wf size contents = true ↔
      (m.map Prod.fst).Pairwise (· < ·) ∧ ∀ p ∈ m, p.1 < size ∧ p.2 ≠ contents p.1 := by
  simp [TableMem.wf]

@[simp] theorem TableMem.wf_nil (size : Nat) (contents : Nat → BitVec w) :
    TableMem.wf size contents [] = true := by simp [TableMem.wf]

/-- The fill keeps the canonical form. -/
theorem TableMem.fill_wf {size : Nat} {contents : Nat → BitVec w} {m : TableMem w} (i : Nat)
    (h : m.wf size contents = true) : (m.fill i).wf size contents = true := by
  rw [TableMem.wf_iff] at h ⊢
  refine ⟨h.1.sublist (List.filter_sublist.map _), fun p hp => h.2 p (List.mem_of_mem_filter hp)⟩

/-- A table written out entry by entry is in canonical form. -/
theorem TableMem.ofEntries_wf (size : Nat) (contents f : Nat → BitVec w) :
    (TableMem.ofEntries size contents f).wf size contents = true := by
  rw [TableMem.wf_iff]
  constructor
  · rw [List.pairwise_map]
    refine List.Pairwise.filterMap _ ?_ List.pairwise_lt_range
    intro a b hab x hx y hy
    simp at hx hy
    simp [← hx.2, ← hy.2, hab]
  · intro p hp
    simp only [TableMem.ofEntries, List.mem_filterMap, List.mem_range] at hp
    obtain ⟨i, hi, he⟩ := hp
    split at he
    · cases he
    · cases he; exact ⟨hi, ‹_›⟩

/-- A table written out entry by entry reads as what was written. -/
theorem TableMem.read_ofEntries {size : Nat} {contents f : Nat → BitVec w} {i : Nat} (h : i < size) :
    TableMem.read contents (TableMem.ofEntries size contents f) i = f i := by
  suffices ∀ l : List Nat, i ∈ l → TableMem.read contents
      (l.filterMap fun i => if f i = contents i then none else some (i, f i)) i = f i from
    this _ (List.mem_range.2 h)
  intro l
  induction l with
  | nil => simp
  | cons a l ih =>
    intro hi
    by_cases ha : f a = contents a
    · simp only [List.filterMap_cons, ha, if_true]
      by_cases hl : i ∈ l
      · exact ih hl
      · have : i = a := by simpa [hl] using hi
        subst this
        rw [ha]
        refine TableMem.read_of_not_listed ?_
        intro p hp e
        simp only [List.mem_filterMap] at hp
        obtain ⟨j, hj, he⟩ := hp
        split at he
        · cases he
        · cases he; exact hl (e ▸ hj)
    · simp only [List.filterMap_cons, ha, if_false, TableMem.read]
      split
      · subst i; rfl
      · rename_i hne; exact ih (by simpa [hne] using hi)

theorem Tables.wf_iff {t : Tables} : t.wf = true ↔
    t.base.wf (tableSize .base) baseContents = true ∧ t.shift.wf (tableSize .shift) shiftContents = true ∧
      t.mantissa.wf (tableSize .mantissa) mantissaContents = true ∧
      t.offset.wf (tableSize .offset) offsetContents = true ∧
      t.exponent.wf (tableSize .exponent) exponentContents = true := by
  simp [Tables.wf, and_assoc]

@[simp] theorem Tables.filled_wf : Tables.filled.wf = true := by simp [Tables.wf_iff, Tables.filled]

@[simp] theorem Tables.unfilled_wf (draw : Nat) : (Tables.unfilled draw).wf = true := by
  simp [Tables.wf_iff, Tables.unfilled, TableMem.ofEntries_wf]

/-- The fill keeps the canonical form of every table. -/
theorem Tables.fillAt_wf {t : Tables} (i : Nat) (h : t.wf = true) : (t.fillAt i).wf = true := by
  rw [Tables.wf_iff] at h ⊢
  exact ⟨TableMem.fill_wf i h.1, TableMem.fill_wf i h.2.1, TableMem.fill_wf i h.2.2.1,
    TableMem.fill_wf i h.2.2.2.1, TableMem.fill_wf i h.2.2.2.2⟩

/-! ### How far the fill has come -/

theorem Tables.filledBelow_iff {t : Tables} {n : Nat} : t.filledBelow n = true ↔
    (∀ p ∈ t.base, n ≤ p.1) ∧ (∀ p ∈ t.shift, n ≤ p.1) ∧ (∀ p ∈ t.mantissa, n ≤ p.1) ∧
      (∀ p ∈ t.offset, n ≤ p.1) ∧ (∀ p ∈ t.exponent, n ≤ p.1) := by
  simp [Tables.filledBelow, and_assoc]

@[simp] theorem Tables.filledBelow_zero (t : Tables) : t.filledBelow 0 = true := by
  simp [Tables.filledBelow_iff]

theorem TableMem.fill_bound {m : TableMem w} {n : Nat} (h : ∀ p ∈ m, n ≤ p.1) :
    ∀ p ∈ m.fill n, n + 1 ≤ p.1 := by
  intro p hp
  simp only [TableMem.fill, List.mem_filter, bne_iff_ne, ne_eq] at hp
  have := h p hp.1
  omega

/-- One more index filled. -/
theorem Tables.fillAt_filledBelow {t : Tables} {n : Nat} (h : t.filledBelow n = true) :
    (t.fillAt n).filledBelow (n + 1) = true := by
  rw [Tables.filledBelow_iff] at h ⊢
  exact ⟨TableMem.fill_bound h.1, TableMem.fill_bound h.2.1, TableMem.fill_bound h.2.2.1,
    TableMem.fill_bound h.2.2.2.1, TableMem.fill_bound h.2.2.2.2⟩

theorem TableMem.eq_nil_of_bound {size : Nat} {contents : Nat → BitVec w} {m : TableMem w}
    (hwf : m.wf size contents = true) {n : Nat} (hn : size ≤ n) (h : ∀ p ∈ m, n ≤ p.1) : m = [] := by
  cases m with
  | nil => rfl
  | cons p m =>
    have h1 := (TableMem.wf_iff.1 hwf).2 p (by simp)
    have h2 := h p (by simp)
    omega

/-- Canonical tables filled to the end hold their contents. -/
theorem Tables.eq_filled {t : Tables} (hwf : t.wf = true) (h : t.filledBelow fillLength = true) :
    t = Tables.filled := by
  rw [Tables.wf_iff] at hwf
  rw [Tables.filledBelow_iff] at h
  obtain ⟨b, s, m, o, e⟩ := t
  obtain ⟨h1, h2, h3, h4, h5⟩ := h
  obtain ⟨w1, w2, w3, w4, w5⟩ := hwf
  simp only [Tables.filled, Tables.mk.injEq]
  exact ⟨TableMem.eq_nil_of_bound w1 (by decide) h1, TableMem.eq_nil_of_bound w2 (by decide) h2,
    TableMem.eq_nil_of_bound w3 (by decide) h3, TableMem.eq_nil_of_bound w4 (by decide) h4,
    TableMem.eq_nil_of_bound w5 (by decide) h5⟩

end Sys2Proof.Machine
end

