-- ==== Sys2Proof/Laws/Step.lean ====
section
/-! SUPPORT. What a transaction and a step can do, each said once. -/

namespace Sys2Proof.Machine

/-! ### The shared operations: everything each can do -/

/-- A transaction that answers a next state has completed, or is held. -/
theorem State.transact_next_cases {s done t : State} {w : Nat} (h : s.transact w done = .next t) :
    (s.tablesValid = true ∧ s.operandUndriven w = false ∧ t = done) ∨
      (s.tablesValid = false ∧ t = s.fillStep) := by
  rw [State.transact] at h
  split at h
  · split at h
    · cases h
    · cases h; simp_all
  · cases h; simp_all

/-- A step of the fill writes one index, or is the last one. -/
theorem State.fillStep_cases (s : State) :
    (s.fillNext < fillLength ∧
        s.fillStep = { s with tables := s.tables.fillAt s.fillNext, fillNext := s.fillNext + 1 }) ∨
      (fillLength ≤ s.fillNext ∧ s.fillStep = { s with tablesReady := true }) := by
  unfold State.fillStep
  split
  · exact .inl ⟨‹_›, rfl⟩
  · exact .inr ⟨Nat.le_of_not_lt ‹_›, rfl⟩

theorem State.idle_of_valid {s : State} (h : s.tablesValid = true) : s.idle = s := by simp [State.idle, h]

theorem State.idle_of_not_valid {s : State} (h : s.tablesValid = false) : s.idle = s.fillStep := by
  simp [State.idle, h]

theorem State.pullReset_of_rom {s : State} (h : s.cfg.tableImpl = .rom) :
    s.pullReset = { s with inputs := s.inputs.tail } := by simp [State.pullReset, h]

theorem State.pullReset_of_init {s : State} (h : s.cfg.tableImpl = .init) :
    s.pullReset = { s with tables := Tables.unfilled s.freeDraws, tablesReady := false, fillNext := 0,
                           freeDraws := s.freeDraws + 1, inputs := s.inputs.tail } := by
  simp [State.pullReset, h]

/-! ### exec -/

/-- The state a transaction completes in: its ports driven, its response given. -/
def completed (i : Instr) (s : State) : State :=
  match i with
  | .pack x =>
    ((s.drivePkX x).driveBsKey (keyOf (narrow s.cfg x))).respond (.pack (packFunction s.cfg s.tables x))
  | .unpack h =>
    (((s.driveUpH h).driveOeIdx (expIdxOf h)).driveMIdx (mantIdxOf s.tables h)).respond
      (.unpack (unpackFunction s.cfg s.tables h))
  | .lutBs key => (s.driveBsKey key).respond (.lutBs (s.tables.readBase key) (s.tables.readShift key))
  | .lutOe idx => (s.driveOeIdx idx).respond (.lutOe (s.tables.readOffset idx) (s.tables.readExponent idx))
  | .lutM idx => (s.driveMIdx idx).respond (.lutM (s.tables.readMantissa idx))

/-- The response a transaction gives, read from the tables as they stand. -/
def responseIn (i : Instr) (s : State) : Response :=
  match i with
  | .pack x => .pack (packFunction s.cfg s.tables x)
  | .unpack h => .unpack (unpackFunction s.cfg s.tables h)
  | .lutBs key => .lutBs (s.tables.readBase key) (s.tables.readShift key)
  | .lutOe idx => .lutOe (s.tables.readOffset idx) (s.tables.readExponent idx)
  | .lutM idx => .lutM (s.tables.readMantissa idx)

/-- `exec` is one transaction. -/
theorem exec_eq_transact (i : Instr) (s : State) :
    exec i s = s.transact i.mnemonic.operandWidth (completed i s) := by cases i <;> rfl

@[simp] theorem completed_cfg (i : Instr) (s : State) : (completed i s).cfg = s.cfg := by cases i <;> rfl
@[simp] theorem completed_tables (i : Instr) (s : State) : (completed i s).tables = s.tables := by cases i <;> rfl
@[simp] theorem completed_tablesReady (i : Instr) (s : State) : (completed i s).tablesReady = s.tablesReady := by
  cases i <;> rfl
@[simp] theorem completed_fillNext (i : Instr) (s : State) : (completed i s).fillNext = s.fillNext := by
  cases i <;> rfl
@[simp] theorem completed_freeDraws (i : Instr) (s : State) : (completed i s).freeDraws = s.freeDraws := by
  cases i <;> rfl
@[simp] theorem completed_inputs (i : Instr) (s : State) : (completed i s).inputs = s.inputs.tail := by
  cases i <;> rfl
@[simp] theorem completed_responses (i : Instr) (s : State) :
    (completed i s).responses = s.responses ++ [responseIn i s] := by cases i <;> rfl
@[simp] theorem completed_tablesValid (i : Instr) (s : State) : (completed i s).tablesValid = s.tablesValid := by
  cases i <;> rfl

/-- With tables that hold their contents, the response is the one of the constant tables. -/
theorem responseIn_of_filled {s : State} (h : s.tables = Tables.filled) (i : Instr) :
    responseIn i s = responseOf s.cfg i := by cases i <;> simp only [responseIn, responseOf, h]

/-- Everything `exec` can do when it answers a next state: complete, or hold. -/
theorem exec_next_cases {i : Instr} {s t : State} (h : exec i s = .next t) :
    (s.tablesValid = true ∧ s.operandUndriven i.mnemonic.operandWidth = false ∧ t = completed i s) ∨
      (s.tablesValid = false ∧ t = s.fillStep) := by
  rw [exec_eq_transact] at h
  exact State.transact_next_cases h

theorem exec_completes {i : Instr} {s : State} (hv : s.tablesValid = true)
    (hd : s.operandUndriven i.mnemonic.operandWidth = false) : exec i s = .next (completed i s) := by
  simp [exec_eq_transact, State.transact, hv, hd]

theorem exec_undriven {i : Instr} {s : State} (hv : s.tablesValid = true)
    (hd : s.operandUndriven i.mnemonic.operandWidth = true) : exec i s = .fault .undrivenOperand := by
  simp [exec_eq_transact, State.transact, hv, hd]

theorem exec_held {i : Instr} {s : State} (hv : s.tablesValid = false) : exec i s = .next s.fillStep := by
  simp [exec_eq_transact, State.transact, hv]

/-- `exec` never refuses. -/
theorem exec_not_refused (i : Instr) (s : State) (r : Refusal) : exec i s ≠ .refused r := by
  rw [exec_eq_transact, State.transact]
  split
  · split <;> simp
  · simp

/-! ### step -/

theorem step_of_no_input {s : State} (h : s.inputs = []) : step s = .next s.idle := by simp [step, h]

theorem step_of_rst {s : State} {rest : List Input} (h : s.inputs = .rst :: rest) : step s = .next s.pullReset := by
  simp [step, h]

theorem step_of_request {s : State} {r : Request} {rest : List Input} {i : Instr}
    (h : s.inputs = .request r :: rest) (hd : decode r.word = .ok i) : step s = exec i s := by
  simp [step, h, hd]

theorem step_of_refused_word {s : State} {r : Request} {rest : List Input} {e : DecodeError}
    (h : s.inputs = .request r :: rest) (hd : decode r.word = .error e) : step s = .refused (refusalOf e) := by
  simp [step, h, hd]

/-- Everything a step can do when it answers a next state. -/
theorem step_next_cases {s t : State} (h : step s = .next t) :
    (s.inputs = [] ∧ t = s.idle) ∨
      (∃ rest, s.inputs = .rst :: rest ∧ t = s.pullReset) ∨
      (∃ r rest i, s.inputs = .request r :: rest ∧ decode r.word = .ok i ∧ s.tablesValid = true ∧
        s.operandUndriven i.mnemonic.operandWidth = false ∧ t = completed i s) ∨
      (∃ r rest i, s.inputs = .request r :: rest ∧ decode r.word = .ok i ∧ s.tablesValid = false ∧
        t = s.fillStep) := by
  unfold step at h
  split at h
  · cases h; exact .inl ⟨‹_›, rfl⟩
  · cases h; exact .inr (.inl ⟨_, ‹_›, rfl⟩)
  · split at h
    · rcases exec_next_cases h with ⟨hv, hd, rfl⟩ | ⟨hv, rfl⟩
      · exact .inr (.inr (.inl ⟨_, _, _, ‹_›, ‹_›, hv, hd, rfl⟩))
      · exact .inr (.inr (.inr ⟨_, _, _, ‹_›, ‹_›, hv, rfl⟩))
    · cases h

/-! ### Runs -/

/-- `runSteps` is the host's run of the machine. -/
theorem runSteps_eq_core_run (n : Nat) (s : State) : runSteps n s = Host.Core.run Sys2Proof.core n s := by
  induction n generalizing s with
  | zero => rfl
  | succ n ih =>
    rcases h : step s with t | r | r
    · have h' : Sys2Proof.core.step s = .next t := h
      simp only [runSteps, Host.Core.run, h, h']
      exact ih t
    · have h' : Sys2Proof.core.step s = .fault r := h
      simp only [runSteps, Host.Core.run, h, h']
      rfl
    · have h' : Sys2Proof.core.step s = .refused r := h
      simp only [runSteps, Host.Core.run, h, h']
      rfl

@[simp] theorem runSteps_zero (s : State) : runSteps 0 s = .next s := rfl

theorem runSteps_of_next {s t : State} (h : step s = .next t) (n : Nat) : runSteps (n + 1) s = runSteps n t := by
  simp [runSteps, h]

end Sys2Proof.Machine
end

