-- ==== Sys2Proof/Machine/Flags.lean ====
section
/-! DEFINITION. There is nothing to define here: the block has no flag and no condition code (spec 10 R23), PACK and
UNPACK write none (spec 41 R123, 42 R136), and the IEEE 754 conditions are "not signalled, flagged or trapped" (spec
60 R152). -/
end

