-- ==== Sys2Proof/Tests/Slice0.lean ====
section
/-! SUPPORT. The model's own tests. Expected results come from the vectors and programs of spec 95 and the examples of
the rules, named beside each test; the witnesses meet the hypotheses of the statements, clause by clause. -/

namespace Sys2Proof.Tests

open Sys2Proof.Machine

/-! ### Helpers -/

/-- The responses after one transaction from reset under the parameters `c`, none if it does not complete. -/
def responsesAfter (c : Config) (i : Instr) : Option (List Response) :=
  match exec i (State.resetOf c) with
  | .next t => some t.responses
  | _ => none

/-- The refusal of a step. -/
def refusalOfStep (s : State) : Option Refusal :=
  match step s with
  | .refused r => some r
  | _ => none

/-- The fault of a step. -/
def faultOfStep (s : State) : Option Fault :=
  match step s with
  | .fault r => some r
  | _ => none

/-- The state after reset with requests of these words and undriven lines presented. -/
def presented (c : Config) (qs : List (ReqWord × BitVec 64)) : State :=
  { State.resetOf c with inputs := qs.map fun p => .request ⟨p.1, p.2⟩ }

/-- The state of an INIT machine whose fill stands at index `k`, a request presented, the tables' last MANTISSA entry
still unfilled. -/
def filling (k : Nat) (ready : Bool) : State :=
  { State.reset with
    cfg := ⟨.rne, true, .init, 0⟩
    tables := if ready then Tables.filled else { Tables.filled with mantissa := if k ≤ 2047 then [(2047, 0#32)] else [] }
    tablesReady := ready
    fillNext := k
    inputs := [.request ⟨0x10000000000003C00#67, 0#64⟩] }

abbrev rtz : Config := ⟨.rtz, true, .rom, 0⟩
abbrev noQuiet : Config := ⟨.rne, false, .rom, 0⟩

/-! ### Well-formedness: each check refuses an ill-formed word (spec 95 V-EN-2 to V-EN-8) -/

theorem test_wf_refuses_op_101 : opAssigned 0x50000000000000000#67 = false := by decide
theorem test_wf_refuses_op_111 : wordAdmitted 0x70000000000003C00#67 = false := by decide
theorem test_wf_refuses_unpack_bit_16 : wordAdmitted 0x10000000000010000#67 = false := by decide
theorem test_wf_refuses_unpack_bit_63 : wordAdmitted 0x18000000000003C00#67 = false := by decide
theorem test_wf_refuses_lutBs_bit_9 : wordAdmitted 0x20000000000000200#67 = false := by decide
theorem test_wf_refuses_lutOe_bit_6 : wordAdmitted 0x30000000000000040#67 = false := by decide
theorem test_wf_refuses_lutM_bit_11 : wordAdmitted 0x40000000000000800#67 = false := by decide
theorem test_wf_operandFits_refuses : operandFits 16 0x10000#64 = false := by decide
theorem test_wf_admits_all_ones_pack : wordAdmitted 0x0FFFFFFFFFFFFFFFF#67 = true := by decide

/-! ### Decoding: words written out bit by bit from spec 30 R69 -/

theorem test_decode_pack :
    decode 0b0000100000010011111111111000000000000000000000000000000000000000000#67
      = .ok (.pack 0x409FFC0000000000#64) := by decide
theorem test_decode_unpack :
    decode 0b0010000000000000000000000000000000000000000000000000110011111111111#67
      = .ok (.unpack 0x67FF#16) := by decide
theorem test_decode_lutBs :
    decode 0b0100000000000000000000000000000000000000000000000000000000010001001#67
      = .ok (.lutBs 0x089#9) := by decide
theorem test_decode_lutOe :
    decode 0b0110000000000000000000000000000000000000000000000000000000000011001#67
      = .ok (.lutOe 0x19#6) := by decide
theorem test_decode_lutM :
    decode 0b1000000000000000000000000000000000000000000000000000000011111111111#67
      = .ok (.lutM 0x7FF#11) := by decide
theorem test_decode_reserved_op : decode 0x60000000000000000#67 = .error .reservedOp := by decide
theorem test_decode_reserved_bits : decode 0x10000000000013C00#67 = .error .reservedOperandBits := by decide
theorem test_decodeTableWord : decodeTableWord 72 0x20000000000000089 = some (.lutBs 0x089#9) := by decide
theorem test_decodeTableWord_too_wide : decodeTableWord 72 0x80000000000000000 = none := by decide
theorem test_rows_disjoint :
    opcodeRows.Pairwise (fun r t => r.disjoint t = true) := by decide

/-! ### The five operations (spec 95 section 2) -/

/-- V-PK-6. -/
theorem test_pack_2047 : responsesAfter .default (.pack 0x409FFC0000000000#64) = some [.pack 0x67FF#16] := by decide
/-- V-PK-23: NARROW rounds up to 2^-24. -/
theorem test_pack_just_below_denormal :
    responsesAfter .default (.pack 0x3E6FFFFFFF800000#64) = some [.pack 0x0001#16] := by decide
/-- V-UP-17: the addition carries. -/
theorem test_unpack_2047 :
    responsesAfter .default (.unpack 0x67FF#16) = some [.unpack 0x409FFC0000000000#64] := by decide
/-- V-UP-24: a signalling NaN is quieted. -/
theorem test_unpack_signalling :
    responsesAfter .default (.unpack 0xFC01#16) = some [.unpack 0xFFF8040000000000#64] := by decide
/-- V-BS-15. -/
theorem test_lutBs_infinity : responsesAfter .default (.lutBs 0x0FF#9) = some [.lutBs 0x7C00#16 13#5] := by decide
/-- V-BS-18. -/
theorem test_lutBs_negative_denormal :
    responsesAfter .default (.lutBs 0x167#9) = some [.lutBs 0x8001#16 23#5] := by decide +kernel
/-- V-OE-7. -/
theorem test_lutOe_negative_zero :
    responsesAfter .default (.lutOe 0x20#6) = some [.lutOe 0#16 0x80000000#32] := by decide
/-- V-OE-11. -/
theorem test_lutOe_negative_infinity :
    responsesAfter .default (.lutOe 0x3F#6) = some [.lutOe 1024#16 0xC7800000#32] := by decide
/-- V-M-11: the entry spec 90 C2 corrects. -/
theorem test_lutM_last_denormal : responsesAfter .default (.lutM 0x3FF#11) = some [.lutM 0x387FC000#32] := by decide
/-- V-M-8. -/
theorem test_lutM_155 : responsesAfter .default (.lutM 0x155#11) = some [.lutM 0x37AA8000#32] := by decide

/-! ### The other parameter values (spec 95 sections 2.5 to 2.8) -/

/-- V-PK-22 under RTZ. -/
theorem test_pack_rtz : responsesAfter rtz (.pack 0x40EFFFFFF8000000#64) = some [.pack 0x7BFF#16] := by decide
/-- V-PK-47 under no-quiet: an infinity. -/
theorem test_pack_noQuiet : responsesAfter noQuiet (.pack 0xFFF0020000000000#64) = some [.pack 0xFC00#16] := by decide
/-- V-PK-42 under no-quiet: NARROW keeps the result a NaN. -/
theorem test_narrow_noQuiet : narrow noQuiet 0x7FF0000000000001#64 = 0x7FC00000#32 := by decide
/-- V-PK-30 under RTZ: a binary32 subnormal. -/
theorem test_narrow_subnormal : narrow rtz 0x380FFFFFFF800000#64 = 0x007FFFFF#32 := by decide
/-- V-WD-2. -/
theorem test_widen_subnormal : widen .default 0x007FFFFF#32 = 0x380FFFFFC0000000#64 := by decide

/-! ### Outcomes at the boundary (spec 95 section 2.1) -/

/-- V-EN-9. -/
theorem test_undriven_faults :
    faultOfStep (presented .default [(0x10000000000003C00#67, 1#64)]) = some .undrivenOperand := by decide
/-- V-EN-10: the request word is checked before the operand. -/
theorem test_refusal_before_fault :
    refusalOfStep (presented .default [(0x50000000000000000#67, 1#64)]) = some .reservedOp := by decide
/-- V-EN-11: held, then answered. -/
theorem test_held_then_answered :
    (match runSteps 3 (filling 2047 false) with | .next t => some (t.tablesReady, t.responses) | _ => none)
      = some (true, [.unpack 0x3FF0000000000000#64]) := by decide
/-- Reset under ROM, 70 R171: what is presented after it is answered as before it. -/
theorem test_reset_input_rom :
    (match runSteps 2 { State.reset with inputs := [.rst, .request ⟨0x400000000000007FF#67, 0#64⟩] } with
      | .next t => some t.responses | _ => none) = some [.lutM 0x387FE000#32] := by decide

/-! ### Text (spec 30 R73, R74; 95 P1, P2, P3) -/

theorem test_readLine_lutBs :
    readLine ['L', 'U', 'T', '.', 'B', 'S', ' ', '0', 'x', '0', '8', '9']
      = some (.core ⟨.lutBs, .literal 0x089⟩) := by decide
theorem test_expand_rtrip :
    expand [.rtrip 0x7C01#16, .rtrip 0x7E01#16]
      = [⟨.unpack, .literal 0x7C01⟩, ⟨.pack, .response 1⟩, ⟨.unpack, .literal 0x7E01⟩, ⟨.pack, .response 3⟩] := by
  decide
/-- V-L1-4: 1.0e-10. -/
theorem test_packd_small : (DecimalLiteral.number false 10 (-11)).bits = 0x3DDB7CDFD9D7BDBB#64 := by decide
theorem test_packd_negative_zero : (DecimalLiteral.number true 0 0).bits = 0x8000000000000000#64 := by decide

/-! ### Formats: a value by hand (spec 30 R61) -/

theorem test_value_largest_half : value16 0x7BFF#16 = .finite 65504 := by
  have h1 : (class16 0x7BFF#16).isNan = false := by decide
  have h2 : class16 0x7BFF#16 ≠ .infinity := by decide
  have h3 : exp16 0x7BFF#16 = 30#5 := by decide
  have h4 : man16 0x7BFF#16 = 1023#10 := by decide
  have h5 : sign16 0x7BFF#16 = 0#1 := by decide
  simp [value16, h1, h2, h5, signFactor, finiteMag16, h3, h4]
  norm_num

end Sys2Proof.Tests
end

