-- ==== Sys2Proof/Tests/Witnesses.lean ====
section
/-! SUPPORT. For every statement with hypotheses, a concrete state and operands that meet all of them together; for a
statement of several clauses, one for each clause at a boundary of its range. -/

namespace Sys2Proof.Tests

open Sys2Proof.Machine

/-! ### Request words -/

theorem witness_EncodeOfDecodeIsTheWord : decode 0x10000000000003C00#67 = .ok (.unpack 0x3C00#16) := by decide

theorem witness_DecodeFollowsTheOpcodeTable :
    (⟨.unpack, 0x7FFFFFFFFFFFF0000#67, 0x10000000000000000#67⟩ : OpcodeRow) ∈ opcodeRows := by decide

/-- The smallest reserved op, each field's smallest bit above, and the largest admitted words, one presented. -/
theorem witness_ReservedRequestWordsAreRefused :
    (presented .default [(0x50000000000000000#67, 1#64)]).inputs = .request ⟨0x50000000000000000#67, 1#64⟩ :: [] ∧
      5 ≤ (BitVec.extractLsb' 64 3 0x50000000000000000#67).toNat ∧
      ((BitVec.extractLsb' 64 3 0x10000000000010000#67).toNat = 1 ∧
        2 ^ 16 ≤ (BitVec.extractLsb' 0 64 0x10000000000010000#67).toNat) ∧
      ((BitVec.extractLsb' 64 3 0x20000000000000200#67).toNat = 2 ∧
        2 ^ 9 ≤ (BitVec.extractLsb' 0 64 0x20000000000000200#67).toNat) ∧
      ((BitVec.extractLsb' 64 3 0x30000000000000040#67).toNat = 3 ∧
        2 ^ 6 ≤ (BitVec.extractLsb' 0 64 0x30000000000000040#67).toNat) ∧
      ((BitVec.extractLsb' 64 3 0x40000000000000800#67).toNat = 4 ∧
        2 ^ 11 ≤ (BitVec.extractLsb' 0 64 0x40000000000000800#67).toNat) ∧
      ((BitVec.extractLsb' 64 3 0x400000000000007FF#67).toNat = 4 ∧
        (BitVec.extractLsb' 0 64 0x400000000000007FF#67).toNat < 2 ^ 11) := by decide

/-! ### Steps -/

theorem witness_StepRunsTheDecodedRequest :
    (presented .default [(0x10000000000003C00#67, 0#64)]).inputs = .request ⟨0x10000000000003C00#67, 0#64⟩ :: [] ∧
      decode 0x10000000000003C00#67 = .ok (.unpack 0x3C00#16) := by decide

theorem witness_PresentedWordIsRunNext : 67 ≤ 67 := by decide

theorem witness_NothingPresentedNothingChanges :
    State.reset.inputs = [] ∧ State.reset.tablesValid = true := by decide

/-- The highest line of the port is undriven; then only a line above the port is. -/
theorem witness_UndrivenOperandFaults :
    let s := presented .default [(0x10000000000003C00#67, 0x8000#64)]
    let s' := presented .default [(0x10000000000003C00#67, 0x10000#64)]
    (s.tablesValid = true ∧ ∃ k < (Instr.unpack 0x3C00#16).mnemonic.operandWidth, s.undriven.getLsbD k = true) ∧
      (s'.tablesValid = true ∧
        ∀ k < (Instr.unpack 0x3C00#16).mnemonic.operandWidth, s'.undriven.getLsbD k = false) := by
  refine ⟨⟨rfl, 15, by decide, by decide⟩, rfl, by decide⟩

/-- The last entry, and the step after it. -/
theorem witness_TransactionHeldBeforeTablesReady :
    ((filling 2047 false).cfg.tableImpl = .init ∧ (filling 2047 false).tablesReady = false ∧
        (filling 2047 false).fillNext < 2048) ∧
      ((filling 2048 false).cfg.tableImpl = .init ∧ (filling 2048 false).tablesReady = false ∧
        2048 ≤ (filling 2048 false).fillNext) := by decide

/-! ### The five operations -/

theorem reset_inv : State.reset.Inv := by decide

theorem witness_PackCompletesWithTableSum :
    State.reset.Inv ∧ State.reset.tablesValid = true ∧ State.reset.operandUndriven 64 = false := by decide
theorem witness_UnpackCompletesWithTableSum :
    (filling 2048 true).Inv ∧ (filling 2048 true).tablesValid = true ∧
      (filling 2048 true).operandUndriven 16 = false := by decide
theorem witness_LutBsCompletesWithEntries :
    State.reset.Inv ∧ State.reset.tablesValid = true ∧ State.reset.operandUndriven 9 = false := by decide
theorem witness_LutOeCompletesWithEntries :
    State.reset.Inv ∧ State.reset.tablesValid = true ∧ State.reset.operandUndriven 6 = false := by decide
theorem witness_LutMCompletesWithEntry :
    State.reset.Inv ∧ State.reset.tablesValid = true ∧ State.reset.operandUndriven 11 = false := by decide

theorem witness_OutputsCarryTheResponse :
    State.reset.tablesValid = true ∧ (∃ t, exec (.pack 0x409FFC0000000000#64) State.reset = .next t) ∧
      (∃ t, exec (.unpack 0x67FF#16) State.reset = .next t) ∧ (∃ t, exec (.lutBs 0x089#9) State.reset = .next t) ∧
      (∃ t, exec (.lutOe 0x19#6) State.reset = .next t) ∧ ∃ t, exec (.lutM 0x7FF#11) State.reset = .next t :=
  ⟨rfl, ⟨_, rfl⟩, ⟨_, rfl⟩, ⟨_, rfl⟩, ⟨_, rfl⟩, ⟨_, rfl⟩⟩

theorem witness_NoOperationWritesATable :
    (filling 2048 true).tablesValid = true ∧ (filling 2048 true).cfg.tableImpl = .init ∧
      (filling 2048 true).inputs.head? ≠ some .rst ∧ ∃ t, step (filling 2048 true) = .next t :=
  ⟨rfl, rfl, by decide, _, rfl⟩

/-- The two table sets differ elsewhere. -/
theorem witness_ConvertersReadOnlyTheirEntries :
    let t : Tables := { Tables.filled with base := [(0, 1#16)], mantissa := [(0, 1#32)] }
    t ≠ Tables.filled ∧
      (Tables.filled.readBase 0x089#9 = t.readBase 0x089#9 ∧ Tables.filled.readShift 0x089#9 = t.readShift 0x089#9) ∧
      (Tables.filled.readOffset 0x19#6 = t.readOffset 0x19#6 ∧
        Tables.filled.readExponent 0x19#6 = t.readExponent 0x19#6 ∧
        Tables.filled.readMantissa 0x7FF#11 = t.readMantissa 0x7FF#11) := by decide

theorem witness_OperationsDriveOnlyTheirPorts :
    (∃ t, exec (.pack 0x409FFC0000000000#64) State.reset = .next t) ∧
      (∃ t, exec (.unpack 0x67FF#16) State.reset = .next t) ∧ (∃ t, exec (.lutBs 0x089#9) State.reset = .next t) ∧
      (∃ t, exec (.lutOe 0x19#6) State.reset = .next t) ∧ ∃ t, exec (.lutM 0x7FF#11) State.reset = .next t :=
  ⟨⟨_, rfl⟩, ⟨_, rfl⟩, ⟨_, rfl⟩, ⟨_, rfl⟩, ⟨_, rfl⟩⟩

/-! ### The tables: each range at its ends (spec 95 V-BS, V-OE, V-M) -/

theorem witness_BaseAndShiftTablesByRange :
    (baseContents 102 = 0x0000#16 ∧ shiftContents 102 = 24#5) ∧ (baseContents 103 = 0x0001#16 ∧ shiftContents 103 = 23#5) ∧
      (baseContents 112 = 0x0200#16 ∧ shiftContents 112 = 14#5) ∧ (baseContents 113 = 0x0400#16 ∧ shiftContents 113 = 13#5) ∧
      (baseContents 142 = 0x7800#16 ∧ shiftContents 142 = 13#5) ∧ (baseContents 143 = 0x7C00#16 ∧ shiftContents 143 = 24#5) ∧
      (baseContents 254 = 0x7C00#16 ∧ shiftContents 254 = 24#5) ∧ (baseContents 255 = 0x7C00#16 ∧ shiftContents 255 = 13#5) := by
  decide +kernel

theorem witness_MantissaTableInClosedForm :
    (2 ^ 0 ≤ 1 ∧ 1 < 2 ^ (0 + 1) ∧ mantissaContents 1 = 0x33800000#32) ∧
      (2 ^ 9 ≤ 1023 ∧ 1023 < 2 ^ (9 + 1) ∧ mantissaContents 1023 = 0x387FC000#32) ∧
      mantissaContents 1024 = 0x38000000#32 ∧ mantissaContents 2046 = 0x387FC000#32 := by decide +kernel

/-- `i = 1` takes ten passes, `i = 1023` one. -/
theorem witness_RenormLoopEndsInTenPasses :
    (renormLoop 10 (1 <<< 13) 0).2 = -(10 * 0x00800000) ∧ (renormLoop 10 (1023 <<< 13) 0).2 = -(1 * 0x00800000) := by
  decide +kernel

theorem witness_ExponentAndOffsetTables :
    exponentContents 0 = 0x00000000#32 ∧ exponentContents 1 = 0x00800000#32 ∧ exponentContents 30 = 0x0F000000#32 ∧
      exponentContents 31 = 0x47800000#32 ∧ exponentContents 32 = 0x80000000#32 ∧
      exponentContents 33 = 0x80800000#32 ∧ exponentContents 62 = 0x8F000000#32 ∧
      exponentContents 63 = 0xC7800000#32 := by decide +kernel

/-! ### The table stages: exponent fields at the ends of each range -/

theorem witness_PackAdditionNeverCarries :
    (exp32 0x337FFFFF#32).toNat = 102 ∧ (exp32 0x33800000#32).toNat = 103 ∧ (exp32 0x387FFFFF#32).toNat = 112 ∧
      (exp32 0x38800000#32).toNat = 113 ∧ (exp32 0x477FFFFF#32).toNat = 142 ∧ (exp32 0x47800000#32).toNat = 143 ∧
      (exp32 0x7F7FFFFF#32).toNat = 254 ∧ (exp32 0x7F800001#32).toNat = 255 := by decide

theorem witness_PackStageByExponentField :
    (BitVec.extractLsb' 23 8 0x337FFFFF#32).toNat = 102 ∧ (BitVec.extractLsb' 23 8 0x33800000#32).toNat = 103 ∧
      (BitVec.extractLsb' 23 8 0x387FFFFF#32).toNat = 112 ∧ (BitVec.extractLsb' 23 8 0x38800000#32).toNat = 113 ∧
      (BitVec.extractLsb' 23 8 0x477FFFFF#32).toNat = 142 ∧ (BitVec.extractLsb' 23 8 0x47800000#32).toNat = 143 ∧
      (BitVec.extractLsb' 23 8 0x7F7FFFFF#32).toNat = 254 ∧ (BitVec.extractLsb' 23 8 0x7F800001#32).toNat = 255 := by
  decide

/-- An infinity; then 65504, the lower end of the last finite step. -/
theorem witness_PackStageTruncates :
    ((class32 0x7F800000#32).isNan = false ∧ class32 0x7F800000#32 = .infinity) ∧
      ((class32 0x477FE000#32).isNan = false ∧ class32 0x477FE000#32 ≠ .infinity ∧
        finiteMag32 0x477FE000#32 = 65504) := by
  refine ⟨by decide, by decide, by decide, ?_⟩
  have h1 : exp32 0x477FE000#32 = 142#8 := by decide
  have h2 : man32 0x477FE000#32 = 0x7FE000#23 := by decide
  simp [finiteMag32, h1, h2]
  norm_num

theorem witness_UnpackStageByClass :
    (exp16 0x0000#16).toNat = 0 ∧ (man16 0x0000#16).toNat = 0 ∧ (exp16 0x0001#16).toNat = 0 ∧
      (man16 0x0001#16).toNat = 1 ∧ (man16 0x03FF#16).toNat = 1023 ∧ (exp16 0x0400#16).toNat = 1 ∧
      (exp16 0x7BFF#16).toNat = 30 ∧ (exp16 0x7C00#16).toNat = 31 ∧ (man16 0x7C00#16).toNat = 0 ∧
      (exp16 0x7C01#16).toNat = 31 ∧ (man16 0x7C01#16).toNat = 1 := by decide

theorem witness_UnpackStageGivesNoSubnormal :
    exp16 0x0001#16 ≠ 31#5 ∧ finiteMag32 (unpack32 Tables.filled 0x0001#16) ≠ 0 := by
  refine ⟨by decide, ?_⟩
  have h0 : unpack32 Tables.filled 0x0001#16 = 0x33800000#32 := by decide +kernel
  have h1 : exp32 0x33800000#32 = 103#8 := by decide
  have h2 : man32 0x33800000#32 = 0#23 := by decide
  simp [h0, finiteMag32, h1, h2]

/-! ### NARROW and WIDEN -/

theorem witness_NarrowOfSpecialOperands :
    (exp64 0x7FF0000000000000#64 = 2047#11 ∧ frac64 0x7FF0000000000000#64 = 0#52) ∧
      exp64 0x0000000000000001#64 = 0#11 ∧
      (exp64 0x7FF0000000000001#64 = 2047#11 ∧ frac64 0x7FF0000000000001#64 ≠ 0#52 ∧
        Config.default.nanQuiet = true ∧ noQuiet.nanQuiet = false) := by decide

/-- e = 128; e = 127, at the magnitude (2 - 2^-24) × 2^127; e = -126. -/
theorem witness_NarrowOfNormalOperands :
    (exp64 0x47F0000000000000#64).toNat = 1151 ∧ (exp64 0x47EFFFFFF0000000#64).toNat = 1150 ∧
      (exp64 0x3810000000000000#64).toNat = 897 ∧
      (2 - (2 : ℚ) ^ (-24 : ℤ)) * 2 ^ 127 ≤ finiteMag64 0x47EFFFFFF0000000#64 := by
  refine ⟨by decide, by decide, by decide, ?_⟩
  have h1 : exp64 0x47EFFFFFF0000000#64 = 1150#11 := by decide
  have h2 : frac64 0x47EFFFFFF0000000#64 = 0xFFFFFF0000000#52 := by decide
  simp [finiteMag64, h1, h2]
  norm_num

/-- n = 30 and n = 925. -/
theorem witness_NarrowOfTinyOperands :
    (exp64 0x3800000000000000#64).toNat = 896 ∧ (exp64 0x0010000000000000#64).toNat = 1 := by decide

/-- 1 + 2^-24 lies halfway between two binary32 numbers; the even one is taken. -/
theorem witness_NarrowRoundsToNearestEven :
    Config.default.narrowRnd = .rne ∧ exp64 0x3FF0000010000000#64 ≠ 2047#11 ∧
      exp32 (narrow .default 0x3FF0000010000000#64) ≠ 255#8 ∧ exp32 0x3F800001#32 ≠ 255#8 ∧
      |finiteMag32 0x3F800000#32 - finiteMag64 0x3FF0000010000000#64|
        = |finiteMag32 0x3F800001#32 - finiteMag64 0x3FF0000010000000#64| := by
  refine ⟨rfl, by decide, by decide, by decide, ?_⟩
  have h1 : exp64 0x3FF0000010000000#64 = 1023#11 := by decide
  have h2 : frac64 0x3FF0000010000000#64 = 0x10000000#52 := by decide
  have h3 : exp32 0x3F800000#32 = 127#8 := by decide
  have h4 : man32 0x3F800000#32 = 0#23 := by decide
  have h5 : exp32 0x3F800001#32 = 127#8 := by decide
  have h6 : man32 0x3F800001#32 = 1#23 := by decide
  simp [finiteMag64, finiteMag32, h1, h2, h3, h4, h5, h6]
  norm_num [abs_of_nonneg, abs_of_nonpos]

theorem witness_NarrowTowardZeroTruncates :
    rtz.narrowRnd = .rtz ∧ exp64 0x7FEFFFFFFFFFFFFF#64 ≠ 2047#11 ∧ exp32 0x7F7FFFFF#32 ≠ 255#8 := by decide

theorem witness_WidenByCase :
    (exp32 0x7F800000#32).toNat = 255 ∧ (man32 0x7F800000#32).toNat = 0 ∧ (man32 0x7F800001#32).toNat = 1 ∧
      (exp32 0x007FFFFF#32).toNat = 0 ∧ 2 ^ 22 ≤ (man32 0x007FFFFF#32).toNat ∧
      (man32 0x007FFFFF#32).toNat < 2 ^ (22 + 1) ∧ 2 ^ 0 ≤ (man32 0x00000001#32).toNat ∧
      (man32 0x00000001#32).toNat < 2 ^ (0 + 1) ∧ (exp32 0x00800000#32).toNat = 1 ∧
      (exp32 0x7F7FFFFF#32).toNat = 254 := by decide

/-! ### Laws of the two conversions -/

theorem witness_PackTowardZeroTruncatesOperand :
    rtz.narrowRnd = .rtz ∧ exp64 0x40EFFFFFF8000000#64 ≠ 2047#11 := by decide

/-- m32 = 1, 8191 and 8192; a NaN under each setting. -/
theorem witness_PackOfNans :
    (exp32 0x7F800001#32 = 255#8 ∧ (man32 0x7F800001#32).toNat = 1 ∧ (man32 0x7F801FFF#32).toNat = 8191 ∧
        BitVec.extractLsb' 13 10 0x7F801FFF#32 = 0#10 ∧ BitVec.extractLsb' 13 10 0x7F802000#32 ≠ 0#10) ∧
      ((class64 0x7FF0000020000000#64).isNan = true ∧ Config.default.nanQuiet = true ∧ noQuiet.nanQuiet = false ∧
        (frac64 0x7FF0000020000000#64).extractLsb' 42 10 = 0#10 ∧
        (frac64 0x7FF0000020000000#64).extractLsb' 29 23 ≠ 0#23) := by decide

/-- A finite operand below an infinity. -/
theorem witness_PackIsMonotone : (value64 0x40EFFC0000000000#64).le (value64 0x7FF0000000000000#64) := by
  have h1 : class64 0x7FF0000000000000#64 = .infinity := by decide
  have h2 : class64 0x40EFFC0000000000#64 = .normal := by decide
  have h3 : (sign64 0x7FF0000000000000#64 == 1#1) = false := by decide
  simp [value64, h1, h2, h3, FpClass.isNan, FpValue.le]

theorem witness_PackOfUnpackRoundTrips :
    class16 0x3C00#16 ≠ .signallingNan ∧ class16 0x7C01#16 = .signallingNan ∧ class16 0x7DFF#16 = .signallingNan ∧
      Config.default.nanQuiet = true ∧ noQuiet.nanQuiet = false := by decide

theorem witness_NansPropagateWhenQuieted :
    (class64 0xFFF0020000000000#64).isNan = true ∧ Config.default.nanQuiet = true ∧ noQuiet.nanQuiet = false ∧
      (frac64 0xFFF0020000000000#64).extractLsb' 42 10 = 0#10 ∧
      (frac64 0xFFF0020000000000#64).extractLsb' 29 23 ≠ 0#23 := by decide

/-! ### The machine as a whole -/

theorem filling_inv : (filling 2047 false).Inv := by decide +kernel

theorem witness_StepKeepsTheInvariant :
    (filling 2047 false).Inv ∧ ∃ t, step (filling 2047 false) = .next t := ⟨filling_inv, _, rfl⟩

theorem witness_ResetLeavesTheseValues : Config.default.tableImpl = .rom := rfl

theorem presented_safe : (presented .default [(0x10000000000003C00#67, 0#64), (0x400000000000007FF#67, 0#64)]).Safe :=
  ⟨by decide, by decide⟩

theorem witness_SafeStatesNeverStop :
    (presented .default [(0x10000000000003C00#67, 0#64), (0x400000000000007FF#67, 0#64)]).Safe := presented_safe

theorem witness_EachRequestGetsItsLoneResult :
    let s := presented .default [(0x10000000000003C00#67, 0#64), (0x400000000000007FF#67, 0#64)]
    s.Safe ∧ s.tablesValid = true ∧ ∀ p ∈ s.inputs, p ≠ .rst := ⟨presented_safe, rfl, by decide⟩

theorem witness_FillEndsWithTablesReady :
    (filling 2047 false).Safe ∧ (filling 2047 false).cfg.tableImpl = .init ∧
      (filling 2047 false).tablesReady = false ∧ (filling 2047 false).inputs.head? ≠ some .rst :=
  ⟨⟨filling_inv, by decide⟩, rfl, rfl, by decide⟩

theorem witness_TablesReadyStaysSet :
    (filling 2048 true).cfg.tableImpl = .init ∧ (filling 2048 true).tablesReady = true ∧
      (filling 2048 true).inputs.head? ≠ some .rst ∧ ∃ t, step (filling 2048 true) = .next t :=
  ⟨rfl, rfl, by decide, _, rfl⟩

/-- The reset input pulled in each form. -/
theorem witness_ResetInputClearsTablesReady :
    ({ State.reset with inputs := [.rst] } : State).inputs = .rst :: [] ∧ State.reset.cfg.tableImpl = .rom ∧
      ({ filling 2048 true with inputs := [.rst] } : State).inputs = .rst :: [] ∧
      (filling 2048 true).cfg.tableImpl = .init := ⟨rfl, rfl, rfl, rfl⟩

theorem witness_NoStepChangesTheParameters : ∃ t, step State.reset = .next t := ⟨_, rfl⟩

theorem witness_RomHasNoHiddenState : State.reset.cfg.tableImpl = .rom := rfl

theorem witness_StepGivesAtMostOneResponse : ∃ t, step (filling 2048 true) = .next t := ⟨_, rfl⟩

/-! ### Text -/

theorem witness_RtripExpandsToUnpackAndPack : ([] : List Response).length + 1 = 1 := rfl

end Sys2Proof.Tests
end

section
/-! The invariant step by step, progress on acceptable inputs, and the statements on steps of spec 00 R13. -/

namespace Sys2Proof.Machine

/-! ### The invariant, operation by operation -/

/-- Tables that may be read hold their contents, which are canonical; that is the whole invariant then. -/
theorem State.inv_iff_of_valid {s : State} (hv : s.tablesValid = true) :
    s.Inv ↔ s.tables = Tables.filled ∧ s.fillNext ≤ fillLength := by
  constructor
  · rintro ⟨-, hfilled, hnext, -⟩
    exact ⟨hfilled hv, hnext⟩
  · rintro ⟨hfilled, hnext⟩
    exact ⟨by simp [hfilled], fun _ => hfilled, hnext, by simp [hv]⟩

/-- While the tables may not be read, the invariant speaks of the fill's progress. -/
theorem State.inv_iff_of_not_valid {s : State} (hv : s.tablesValid = false) :
    s.Inv ↔ s.tables.wf = true ∧ s.fillNext ≤ fillLength ∧ s.tables.filledBelow s.fillNext = true := by
  simp [State.Inv, hv]

/-- A step of the fill keeps the invariant: it fills one index more, or finds all of them filled. -/
theorem State.fillStep_inv {s : State} (hv : s.tablesValid = false) (h : s.Inv) : s.fillStep.Inv := by
  obtain ⟨hwf, hnext, hbelow⟩ := (State.inv_iff_of_not_valid hv).1 h
  obtain ⟨himpl, hready⟩ := State.tablesValid_eq_false.1 hv
  rcases s.fillStep_cases with ⟨hlt, heq⟩ | ⟨hle, heq⟩ <;> rw [heq]
  · refine (State.inv_iff_of_not_valid ?_).2
      ⟨Tables.fillAt_wf _ hwf, hlt, Tables.fillAt_filledBelow hbelow⟩
    exact State.tablesValid_eq_false.2 ⟨himpl, hready⟩
  · have hdone : s.fillNext = fillLength := Nat.le_antisymm hnext hle
    have hfilled : s.tables = Tables.filled := Tables.eq_filled hwf (hdone ▸ hbelow)
    refine (State.inv_iff_of_valid ?_).2 ⟨hfilled, hnext⟩
    exact State.tablesValid_init himpl

theorem State.idle_inv {s : State} (h : s.Inv) : s.idle.Inv := by
  cases hv : s.tablesValid with
  | false =>
    rw [State.idle_of_not_valid hv]
    exact State.fillStep_inv hv h
  | true => rwa [State.idle_of_valid hv]

/-- The reset input keeps the invariant: under ROM it moves nothing the invariant speaks of, under INIT the fill starts
again at index 0. -/
theorem State.pullReset_inv {s : State} (h : s.Inv) : s.pullReset.Inv := by
  cases himpl : s.cfg.tableImpl with
  | rom =>
    rw [State.pullReset_of_rom himpl]
    exact h
  | init =>
    rw [State.pullReset_of_init himpl]
    refine (State.inv_iff_of_not_valid ?_).2
      ⟨Tables.unfilled_wf _, Nat.zero_le _, Tables.filledBelow_zero _⟩
    exact State.tablesValid_eq_false.2 ⟨himpl, rfl⟩

theorem completed_inv (i : Instr) {s : State} (h : s.Inv) : (completed i s).Inv := by
  simpa [State.Inv] using h

/-- Every step keeps the invariant. -/
theorem step_inv {s t : State} (hs : s.Inv) (h : step s = .next t) : t.Inv := by
  rcases step_next_cases h with ⟨-, rfl⟩ | ⟨_, -, rfl⟩ | ⟨_, _, i, -, -, -, -, rfl⟩ | ⟨_, _, _, -, -, hv, rfl⟩
  · exact State.idle_inv hs
  · exact State.pullReset_inv hs
  · exact completed_inv i hs
  · exact State.fillStep_inv hv hs

/-! ### What is presented -/

/-- A step presents nothing new: it leaves what is presented, or takes the oldest off. -/
theorem step_inputs_suffix {s t : State} (h : step s = .next t) : t.inputs <:+ s.inputs := by
  rcases step_next_cases h with ⟨-, rfl⟩ | ⟨_, -, rfl⟩ | ⟨_, _, _, -, -, -, -, rfl⟩ | ⟨_, _, _, -, -, -, rfl⟩
  · simp
  · simpa using List.tail_suffix s.inputs
  · simpa using List.tail_suffix s.inputs
  · simp

/-! ### Progress -/

/-- An acceptable request is one whose word is admitted and whose operand lines are all driven. -/
theorem Request.acceptable_iff {r : Request} : r.acceptable = true ↔
    ∃ i, decode r.word = .ok i ∧ r.undriven.setWidth i.mnemonic.operandWidth = 0#i.mnemonic.operandWidth := by
  cases hd : decode r.word <;> simp [Request.acceptable, hd]

theorem State.operandUndriven_of_request {s : State} {r : Request} {rest : List Input}
    (h : s.inputs = .request r :: rest) (w : Nat) :
    s.operandUndriven w = (r.undriven.setWidth w != 0#w) := by
  simp [State.operandUndriven, State.undriven, h]

/-- A transaction with a driven operand completes or is held; it does not stop. -/
theorem exec_next_of_driven {i : Instr} {s : State} (hd : s.operandUndriven i.mnemonic.operandWidth = false) :
    ∃ t, exec i s = .next t := by
  cases hv : s.tablesValid with
  | false => exact ⟨_, exec_held hv⟩
  | true => exact ⟨_, exec_completes hv hd⟩

/-- A step stops at most at its oldest presentation, and at no acceptable one. -/
theorem step_next_of_acceptable {s : State} (h : ∀ p ∈ s.inputs, p.acceptable = true) : ∃ t, step s = .next t := by
  rcases hin : s.inputs with _ | ⟨r | _, rest⟩
  · exact ⟨_, step_of_no_input hin⟩
  · have hr : r.acceptable = true := h (.request r) (by simp [hin])
    obtain ⟨i, hdec, hdriven⟩ := Request.acceptable_iff.1 hr
    rw [step_of_request hin hdec]
    exact exec_next_of_driven (by simp [State.operandUndriven_of_request hin, hdriven])
  · exact ⟨_, step_of_rst hin⟩

/-- A step from a safe state leads to a safe state. -/
theorem step_safe {s t : State} (hs : s.Safe) (h : step s = .next t) : t.Safe :=
  ⟨step_inv hs.1 h, fun p hp => hs.2 p ((step_inputs_suffix h).subset hp)⟩

/-! ### The statements -/

/-- Settles O48: progress by the acceptable oldest presentation, preservation by the invariant's step lemma and by
nothing new being presented. -/
theorem safeStatesNeverStop : Obligations.SafeStatesNeverStop := by
  intro s hs
  obtain ⟨t, ht⟩ := step_next_of_acceptable hs.2
  exact ⟨t, ht, step_safe hs ht⟩

/-- Settles O56, by what a step can do: only a completed transaction adds a response. -/
theorem stepGivesAtMostOneResponse : Obligations.StepGivesAtMostOneResponse := by
  intro s t h
  rcases step_next_cases h with
    ⟨-, rfl⟩ | ⟨_, -, rfl⟩ | ⟨r, rest, i, hin, hdec, -, -, rfl⟩ | ⟨_, _, _, -, -, -, rfl⟩
  · exact .inl (by simp)
  · exact .inl (by simp)
  · exact .inr ⟨r, i, by simp [hin], hdec, responseIn i s, by simp⟩
  · exact .inl (by simp)

/-- Settles O6: the step's equation for a request whose word decodes. -/
theorem stepRunsTheDecodedRequest : Obligations.StepRunsTheDecodedRequest :=
  fun _ _ _ _ hin hdec => step_of_request hin hdec

end Sys2Proof.Machine
end

section
/-! The statements of spec 10: the operand's lines and the ports of a transaction, lists of requests, the parameters and
hidden fields a step leaves alone, and what reset leaves. -/

namespace Sys2Proof.Machine

/-! ### The operand's lines -/

/-- Some bit of the operand is undriven when one of the port's own lines is. -/
theorem State.operandUndriven_iff {s : State} {w : Nat} :
    s.operandUndriven w = true ↔ ∃ k < w, s.undriven.getLsbD k = true := by
  rw [State.operandUndriven, bne_iff_ne, Ne, BitVec.eq_of_getLsbD_eq_iff]
  simp +contextual

/-- The operand is driven when all of the port's own lines are. -/
theorem State.operandUndriven_eq_false_iff {s : State} {w : Nat} :
    s.operandUndriven w = false ↔ ∀ k < w, s.undriven.getLsbD k = false := by
  simp [← Bool.not_eq_true, State.operandUndriven_iff]

/-! ### With valid tables a transaction completes or faults -/

theorem exec_of_valid {s : State} (hv : s.tablesValid = true) (i : Instr) :
    exec i s = if s.operandUndriven i.mnemonic.operandWidth then .fault .undrivenOperand
      else .next (completed i s) := by
  cases hd : s.operandUndriven i.mnemonic.operandWidth with
  | false => simp [exec_completes hv hd]
  | true => simp [exec_undriven hv hd]

theorem eq_completed_of_exec_next {i : Instr} {s t : State} (hv : s.tablesValid = true) (h : exec i s = .next t) :
    t = completed i s := by
  rcases exec_next_cases h with ⟨-, -, ht⟩ | ⟨hnv, -⟩
  · exact ht
  · simp [hv] at hnv

/-- The frame of a transaction on the ports: a port (or a function of the ports) that completing leaves alone keeps its
value, since a held transaction moves no port. -/
theorem exec_keeps_port {α : Type} (port : Ports → α) {i : Instr} {s t : State}
    (hport : port (completed i s).ports = port s.ports) (h : exec i s = .next t) : port t.ports = port s.ports := by
  rcases exec_next_cases h with ⟨-, -, rfl⟩ | ⟨-, rfl⟩
  · exact hport
  · rw [State.fillStep_ports]

/-! ### A list of requests -/

theorem responsesTo_request {r : Request} {i : Instr} (h : decode r.word = .ok i) (c : Config) (rest : List Input) :
    responsesTo c (.request r :: rest) = responseOf c i :: responsesTo c rest := by
  simp [responsesTo, h]

/-- From a safe state with valid tables the oldest request completes. -/
theorem step_completes_of_safe {s : State} {r : Request} {rest : List Input} (hs : s.Safe)
    (hv : s.tablesValid = true) (hin : s.inputs = .request r :: rest) :
    ∃ i, decode r.word = .ok i ∧ step s = .next (completed i s) := by
  have hr : r.acceptable = true := hs.2 (.request r) (by simp [hin])
  obtain ⟨i, hdec, hdriven⟩ := Request.acceptable_iff.1 hr
  refine ⟨i, hdec, ?_⟩
  rw [step_of_request hin hdec]
  exact exec_completes hv (by simp [State.operandUndriven_of_request hin, hdriven])

theorem State.tables_of_safe {s : State} (hs : s.Safe) (hv : s.tablesValid = true) : s.tables = Tables.filled :=
  ((State.inv_iff_of_valid hv).1 hs.1).1

/-- A run over the requests `l` presented gives them their responses, one request a step. -/
theorem runSteps_answers_requests (l : List Input) {s : State} (hin : s.inputs = l) (hs : s.Safe)
    (hv : s.tablesValid = true) (hl : ∀ p ∈ l, p ≠ .rst) :
    ∃ t, runSteps l.length s = .next t ∧ t.inputs = [] ∧
      t.responses = s.responses ++ responsesTo s.cfg l ∧ t.tables = s.tables := by
  induction l generalizing s with
  | nil => exact ⟨s, rfl, hin, by simp [responsesTo], rfl⟩
  | cons p rest ih =>
    cases p with
    | rst => exact absurd rfl (hl .rst (by simp))
    | request r =>
      obtain ⟨i, hdec, hstep⟩ := step_completes_of_safe hs hv hin
      obtain ⟨t, hrun, hempty, hresp, htables⟩ := ih (s := completed i s) (by simp [hin])
        (step_safe hs hstep) (by simpa using hv) (fun p hp => hl p (by simp [hp]))
      refine ⟨t, ?_, hempty, ?_, by simpa using htables⟩
      · rw [List.length_cons, runSteps_of_next hstep, hrun]
      · rw [hresp, responsesTo_request hdec, completed_responses, completed_cfg,
          responseIn_of_filled (State.tables_of_safe hs hv), List.append_assoc, List.singleton_append]

/-! ### The fields that mean nothing under ROM -/

/-- `s` with other values in `tables_ready`, the fill's index and the free-value counter (spec 10 R28). -/
def State.withHidden (ready : Bool) (k d : Nat) (s : State) : State :=
  { s with tablesReady := ready, fillNext := k, freeDraws := d }

section
variable {s : State} (ready : Bool) (k d : Nat)

@[simp] theorem State.withHidden_cfg : (s.withHidden ready k d).cfg = s.cfg := rfl
@[simp] theorem State.withHidden_inputs : (s.withHidden ready k d).inputs = s.inputs := rfl
@[simp] theorem State.withHidden_operandUndriven (w : Nat) :
    (s.withHidden ready k d).operandUndriven w = s.operandUndriven w := rfl

theorem completed_withHidden (i : Instr) :
    completed i (s.withHidden ready k d) = (completed i s).withHidden ready k d := by
  cases i <;> rfl

variable (hrom : s.cfg.tableImpl = .rom)
include hrom

theorem State.idle_withHidden : (s.withHidden ready k d).idle = s.idle.withHidden ready k d := by
  have hrom' : (s.withHidden ready k d).cfg.tableImpl = .rom := hrom
  rw [State.idle_of_valid (State.tablesValid_rom hrom), State.idle_of_valid (State.tablesValid_rom hrom')]

theorem State.pullReset_withHidden : (s.withHidden ready k d).pullReset = s.pullReset.withHidden ready k d := by
  have hrom' : (s.withHidden ready k d).cfg.tableImpl = .rom := hrom
  rw [State.pullReset_of_rom hrom, State.pullReset_of_rom hrom']
  rfl

theorem exec_withHidden (i : Instr) :
    exec i (s.withHidden ready k d) = mapNext (State.withHidden ready k d) (exec i s) := by
  have hrom' : (s.withHidden ready k d).cfg.tableImpl = .rom := hrom
  rw [exec_of_valid (State.tablesValid_rom hrom), exec_of_valid (State.tablesValid_rom hrom'),
    State.withHidden_operandUndriven, completed_withHidden]
  split <;> rfl

/-- Under ROM a step neither reads the hidden fields nor writes them. -/
theorem step_withHidden : step (s.withHidden ready k d) = mapNext (State.withHidden ready k d) (step s) := by
  rcases hin : s.inputs with _ | ⟨r | _, rest⟩
  · rw [step_of_no_input hin, step_of_no_input (s := s.withHidden ready k d) hin,
      State.idle_withHidden ready k d hrom]
    rfl
  · cases hdec : decode r.word with
    | ok i =>
      rw [step_of_request hin hdec, step_of_request (s := s.withHidden ready k d) hin hdec,
        exec_withHidden ready k d hrom]
    | error e =>
      rw [step_of_refused_word hin hdec, step_of_refused_word (s := s.withHidden ready k d) hin hdec]
      rfl
  · rw [step_of_rst hin, step_of_rst (s := s.withHidden ready k d) hin,
      State.pullReset_withHidden ready k d hrom]
    rfl

end

/-! ### Reset -/

theorem State.resetOf_tables_of_rom {c : Config} (h : c.tableImpl = .rom) :
    (State.resetOf c).tables = Tables.filled := by simp [State.resetOf, h]

theorem State.resetOf_tables_of_init {c : Config} (h : c.tableImpl = .init) :
    (State.resetOf c).tables = Tables.unfilled 0 := by simp [State.resetOf, h]

/-- Right after reset the tables may be read under ROM only, since `tables_ready` is 0. -/
theorem State.resetOf_tablesValid_iff (c : Config) :
    (State.resetOf c).tablesValid = true ↔ c.tableImpl = .rom := by
  cases h : c.tableImpl with
  | rom => simp [State.tablesValid_rom (s := State.resetOf c) h]
  | init => simp [State.tablesValid_init (s := State.resetOf c) h]

/-- Under ROM the tables hold their contents; under INIT the unspecified contents are in canonical form and the fill has
written nothing yet. -/
theorem State.resetOf_inv (c : Config) : (State.resetOf c).Inv := by
  cases h : c.tableImpl with
  | rom =>
    exact (State.inv_iff_of_valid ((State.resetOf_tablesValid_iff c).2 h)).2
      ⟨State.resetOf_tables_of_rom h, Nat.zero_le _⟩
  | init =>
    have hv : (State.resetOf c).tablesValid = false := State.tablesValid_eq_false.2 ⟨h, rfl⟩
    refine (State.inv_iff_of_not_valid hv).2 ⟨?_, Nat.zero_le _, Tables.filledBelow_zero _⟩
    rw [State.resetOf_tables_of_init h]
    exact Tables.unfilled_wf 0

/-! ### The statements -/

/-- Settles O49, by induction on the requests presented: each step completes the oldest from tables that hold their
contents. -/
theorem eachRequestGetsItsLoneResult : Obligations.EachRequestGetsItsLoneResult :=
  fun _ hs hv hl => runSteps_answers_requests _ rfl hs hv hl

/-- Settles O9: with valid tables the lines of the operand's port decide between the fault and completion. -/
theorem undrivenOperandFaults : Obligations.UndrivenOperandFaults := by
  intro i s hv
  constructor
  · intro hundriven
    exact exec_undriven hv (State.operandUndriven_iff.2 hundriven)
  · intro hdriven
    exact ⟨completed i s, responseIn i s,
      exec_completes hv (State.operandUndriven_eq_false_iff.2 hdriven), completed_responses i s⟩

/-- Settles O16: the transaction completed, and its input port and the tables give the response again. -/
theorem outputsCarryTheResponse : Obligations.OutputsCarryTheResponse := by
  intro s t hv
  refine ⟨fun x h => ?_, fun x h => ?_, fun key h => ?_, fun idx h => ?_, fun idx h => ?_⟩ <;>
    obtain rfl := eq_completed_of_exec_next hv h
  · exact ⟨packFunction s.cfg s.tables x, rfl, rfl⟩
  · exact ⟨unpackFunction s.cfg s.tables x, rfl, rfl⟩
  · exact ⟨s.tables.readBase key, s.tables.readShift key, rfl, rfl, rfl⟩
  · exact ⟨s.tables.readOffset idx, s.tables.readExponent idx, rfl, rfl, rfl⟩
  · exact ⟨s.tables.readMantissa idx, rfl, rfl⟩

/-- Settles O19, port by port: completing leaves it alone, and so does a hold. -/
theorem operationsDriveOnlyTheirPorts : Obligations.OperationsDriveOnlyTheirPorts := by
  intro s t
  refine ⟨fun x h => ?_, fun x h => ?_, fun key h => ?_, fun idx h => ?_, fun idx h => ?_⟩
  · exact ⟨exec_keeps_port Ports.upH rfl h, exec_keeps_port Ports.oeIdx rfl h, exec_keeps_port Ports.mIdx rfl h⟩
  · exact ⟨exec_keeps_port Ports.pkX rfl h, exec_keeps_port Ports.bsKey rfl h⟩
  · exact ⟨exec_keeps_port Ports.pkX rfl h, exec_keeps_port Ports.upH rfl h, exec_keeps_port Ports.oeIdx rfl h,
      exec_keeps_port Ports.mIdx rfl h⟩
  · exact ⟨exec_keeps_port Ports.pkX rfl h, exec_keeps_port Ports.upH rfl h, exec_keeps_port Ports.bsKey rfl h,
      exec_keeps_port Ports.mIdx rfl h⟩
  · exact ⟨exec_keeps_port Ports.pkX rfl h, exec_keeps_port Ports.upH rfl h, exec_keeps_port Ports.bsKey rfl h,
      exec_keeps_port Ports.oeIdx rfl h⟩

/-- Settles O51: with `tables_ready` set no step is one of the fill, and the reset input is excluded. -/
theorem tablesReadyStaysSet : Obligations.TablesReadyStaysSet := by
  intro s t himpl hready hrst h
  have hv : s.tablesValid = true := (State.tablesValid_init himpl).trans hready
  rcases step_next_cases h with ⟨-, rfl⟩ | ⟨_, hin, -⟩ | ⟨_, _, i, -, -, -, -, rfl⟩ | ⟨_, _, _, -, -, hnv, -⟩
  · rwa [State.idle_of_valid hv]
  · simp [hin] at hrst
  · rwa [completed_tablesReady]
  · simp [hv] at hnv

/-- Settles O53: nothing a step can do changes `cfg`. -/
theorem noStepChangesTheParameters : Obligations.NoStepChangesTheParameters := by
  intro s t h
  rcases step_next_cases h with ⟨-, rfl⟩ | ⟨_, -, rfl⟩ | ⟨_, _, i, -, -, -, -, rfl⟩ | ⟨_, _, _, -, -, -, rfl⟩
  · exact s.idle_cfg
  · exact s.pullReset_cfg
  · exact completed_cfg i s
  · exact s.fillStep_cfg

/-- Settles O55: under ROM each thing a step can do commutes with setting the hidden fields. -/
theorem romHasNoHiddenState : Obligations.RomHasNoHiddenState :=
  fun _ ready k d hrom => step_withHidden ready k d hrom

/-- Settles O8: with nothing presented the step idles, and there is no fill to go on with. -/
theorem nothingPresentedNothingChanges : Obligations.NothingPresentedNothingChanges := by
  intro s hin hv
  rw [step_of_no_input hin, State.idle_of_valid hv]

/-- Settles O45, by the reset state's tables under each form of `P_TABLE_IMPL`. -/
theorem resetMeetsTheInvariant : Obligations.ResetMeetsTheInvariant :=
  ⟨rfl, State.resetOf_inv⟩

/-- Settles O47: under ROM each read is one of the tables that hold their contents. -/
theorem resetLeavesTheseValues : Obligations.ResetLeavesTheseValues := by
  intro c
  refine ⟨State.resetOf_tablesReady c, State.resetOf_tablesValid_iff c, fun hrom => ?_,
    State.resetOf_ports c, State.resetOf_inputs c, State.resetOf_responses c⟩
  rw [State.resetOf_tables_of_rom hrom]
  exact ⟨fun key => ⟨Tables.filled_readBase key, Tables.filled_readShift key⟩, Tables.filled_readMantissa,
    fun idx => ⟨Tables.filled_readOffset idx, Tables.filled_readExponent idx⟩⟩

end Sys2Proof.Machine
end

section
/-! The statements of spec 20: what leaves the tables as they are, and which entries the converters read. -/

namespace Sys2Proof.Machine

/-! ### Valid tables stay as they are -/

/-- The reset input leaves valid tables alone in every form but INIT. -/
theorem State.pullReset_keeps_tables {s : State} (hform : s.cfg.tableImpl ≠ .init) :
    s.pullReset.tables = s.tables ∧ s.pullReset.tablesValid = true := by
  cases himpl : s.cfg.tableImpl with
  | rom =>
    rw [State.pullReset_of_rom himpl]
    exact ⟨rfl, State.tablesValid_rom himpl⟩
  | init => exact absurd himpl hform

/-- The frame of a step on valid tables: only the reset input of the INIT form writes them, the fill being over. -/
theorem step_keeps_valid_tables {s t : State} (hv : s.tablesValid = true)
    (hrst : s.cfg.tableImpl = .init → s.inputs.head? ≠ some .rst) (h : step s = .next t) :
    t.tables = s.tables ∧ t.tablesValid = true := by
  rcases step_next_cases h with ⟨-, rfl⟩ | ⟨_, hin, rfl⟩ | ⟨_, _, i, -, -, -, -, rfl⟩ | ⟨_, _, _, -, -, hnv, -⟩
  · rw [State.idle_of_valid hv]
    exact ⟨rfl, hv⟩
  · exact State.pullReset_keeps_tables fun himpl => hrst himpl (by simp [hin])
  · exact ⟨completed_tables i s, (completed_tablesValid i s).trans hv⟩
  · simp [hv] at hnv

/-! ### The entries a converter reads -/

/-- PACK's table stage depends on BASE and SHIFT at the one key. -/
theorem pack32_congr {t t' : Tables} {b : Single} (hbase : t.readBase (keyOf b) = t'.readBase (keyOf b))
    (hshift : t.readShift (keyOf b) = t'.readShift (keyOf b)) : pack32 t b = pack32 t' b := by
  simp only [pack32, hbase, hshift]

/-- MANTISSA's index is formed modulo the table's length. -/
theorem mantIdxOf_eq_ofNat (t : Tables) (h : Half) :
    mantIdxOf t h = BitVec.ofNat 11 ((t.readOffset (expIdxOf h)).toNat + (man16 h).toNat) :=
  BitVec.eq_of_toNat_eq (by rw [mantIdxOf_toNat, BitVec.toNat_ofNat])

/-- MANTISSA's index depends on OFFSET at the one exponent index. -/
theorem mantIdxOf_congr {t t' : Tables} {h : Half}
    (hoffset : t.readOffset (expIdxOf h) = t'.readOffset (expIdxOf h)) : mantIdxOf t h = mantIdxOf t' h := by
  rw [mantIdxOf, mantIdxOf, hoffset]

/-- UNPACK's table stage depends on OFFSET and EXPONENT at the one exponent index and on MANTISSA at the index OFFSET
gives. -/
theorem unpack32_congr {t t' : Tables} {h : Half}
    (hoffset : t.readOffset (expIdxOf h) = t'.readOffset (expIdxOf h))
    (hexponent : t.readExponent (expIdxOf h) = t'.readExponent (expIdxOf h))
    (hmantissa : t.readMantissa (mantIdxOf t h) = t'.readMantissa (mantIdxOf t h)) :
    unpack32 t h = unpack32 t' h := by
  rw [unpack32, unpack32, ← mantIdxOf_congr hoffset, hmantissa, hexponent]

/-! ### The statements -/

/-- Settles O17: the step leaves the tables themselves alone, so every read of them too. -/
theorem noOperationWritesATable : Obligations.NoOperationWritesATable := by
  intro s t hv hrst h
  obtain ⟨htables, hvalid⟩ := step_keeps_valid_tables hv hrst h
  rw [htables]
  exact ⟨hvalid, fun _ => ⟨rfl, rfl⟩, fun _ => rfl, fun _ => ⟨rfl, rfl⟩⟩

/-- Settles O18: NARROW and WIDEN read no table, and the table stages depend on the named entries alone. -/
theorem convertersReadOnlyTheirEntries : Obligations.ConvertersReadOnlyTheirEntries := by
  constructor
  · intro c t t' x key hbase hshift
    exact pack32_congr (b := narrow c x) hbase hshift
  · intro c t t' h idx m hoffset hexponent hmantissa
    have hm : mantIdxOf t h = m := mantIdxOf_eq_ofNat t h
    exact congrArg (widen c) (unpack32_congr hoffset hexponent (hm ▸ hmantissa))

end Sys2Proof.Machine
end

section
/-! The statements of spec 30: request words and their decoder, the MANTISSA index, a presented word, and the text of
transactions. -/

namespace Sys2Proof

/-! ### Operation codes (spec 30 R69) -/

theorem Mnemonic.ofOp_eq_some_iff {op : BitVec 3} {m : Mnemonic} : Mnemonic.ofOp op = some m ↔ op = m.op := by
  revert op
  cases m <;> decide

@[simp] theorem Mnemonic.ofOp_op (m : Mnemonic) : Mnemonic.ofOp m.op = some m := Mnemonic.ofOp_eq_some_iff.2 rfl

/-- The operation codes that name no operation are 101, 110 and 111. -/
theorem Mnemonic.ofOp_eq_none_iff {op : BitVec 3} : Mnemonic.ofOp op = none ↔ 5 ≤ op.toNat := by
  revert op
  decide

theorem Mnemonic.op_injective : Function.Injective Mnemonic.op := by
  intro m m' h
  have := Mnemonic.ofOp_op m
  rw [h, Mnemonic.ofOp_op] at this
  exact (Option.some.inj this).symm

/-! ### The operand field (spec 30 R70) -/

/-- An operand fits a field when it is a number of the field. -/
theorem operandFits_iff_lt {w : Nat} {operand : BitVec 64} :
    operandFits w operand = true ↔ operand.toNat < 2 ^ w := by
  rw [operandFits, beq_iff_eq, ← BitVec.toNat_inj, BitVec.toNat_ushiftRight, Nat.shiftRight_eq_div_pow,
    BitVec.toNat_zero, Nat.div_eq_zero_iff_lt (Nat.two_pow_pos w)]

/-- Every instruction's operand lies in its field. -/
theorem Instr.wellFormed_eq_true (i : Instr) : i.wellFormed = true := by
  cases i with
  | pack x => exact (Laws.EncodesItsRow.pack x).1
  | unpack h => exact (Laws.EncodesItsRow.unpack h).1
  | lutBs key => exact (Laws.EncodesItsRow.lutBs key).1
  | lutOe idx => exact (Laws.EncodesItsRow.lutOe idx).1
  | lutM idx => exact (Laws.EncodesItsRow.lutM idx).1

/-! ### An instruction and its two parts -/

@[simp] theorem Instr.mnemonic_ofParts (m : Mnemonic) (operand : BitVec 64) :
    (Instr.ofParts m operand).mnemonic = m := by cases m <;> rfl

/-- An operand that fits its field is not cut. -/
theorem Instr.operand_ofParts {m : Mnemonic} {operand : BitVec 64} (h : operandFits m.operandWidth operand = true) :
    (Instr.ofParts m operand).operand = operand := by
  have hlt := operandFits_iff_lt.1 h
  refine BitVec.eq_of_toNat_eq ?_
  cases m with
  | pack => rfl
  | _ =>
    simp only [Mnemonic.operandWidth] at hlt
    simp only [Instr.ofParts, Instr.operand, BitVec.toNat_setWidth]
    omega

/-- An instruction is its operation and its operand. -/
@[simp] theorem Instr.ofParts_mnemonic_operand (i : Instr) : Instr.ofParts i.mnemonic i.operand = i := by
  cases i <;> simp [Instr.ofParts, Instr.mnemonic, Instr.operand]

/-! ### The decoder, one equation per outcome (spec 30 R71) -/

theorem decode_of_reservedOp {q : ReqWord} (h : Mnemonic.ofOp (opField q) = none) :
    decode q = .error .reservedOp := by
  simp [decode, h]

theorem decode_of_fits {q : ReqWord} {m : Mnemonic} (hop : Mnemonic.ofOp (opField q) = some m)
    (hfits : operandFits m.operandWidth (operandField q) = true) :
    decode q = .ok (Instr.ofParts m (operandField q)) := by
  simp [decode, hop, hfits]

theorem decode_of_not_fits {q : ReqWord} {m : Mnemonic} (hop : Mnemonic.ofOp (opField q) = some m)
    (hfits : operandFits m.operandWidth (operandField q) = false) :
    decode q = .error .reservedOperandBits := by
  simp [decode, hop, hfits]

/-- The words the decoder admits, and what it makes of them. -/
theorem decode_eq_ok_iff {q : ReqWord} {i : Instr} : decode q = .ok i ↔
    ∃ m : Mnemonic, opField q = m.op ∧ operandFits m.operandWidth (operandField q) = true ∧
      Instr.ofParts m (operandField q) = i := by
  simp only [← Mnemonic.ofOp_eq_some_iff]
  constructor
  · intro h
    cases hop : Mnemonic.ofOp (opField q) with
    | none => simp [decode_of_reservedOp hop] at h
    | some m =>
      cases hfits : operandFits m.operandWidth (operandField q) with
      | false => simp [decode_of_not_fits hop hfits] at h
      | true =>
        rw [decode_of_fits hop hfits] at h
        exact ⟨m, rfl, hfits, Except.ok.inj h⟩
  · rintro ⟨m, hop, hfits, rfl⟩
    exact decode_of_fits hop hfits

@[simp] theorem decode_encode (i : Instr) : decode (encode i) = .ok i :=
  decode_eq_ok_iff.2 ⟨i.mnemonic, by simp [encode],
    by simpa [encode, Instr.wellFormed] using i.wellFormed_eq_true, by simp [encode]⟩

theorem encode_of_decode {q : ReqWord} {i : Instr} (h : decode q = .ok i) : encode i = q := by
  obtain ⟨m, hop, hfits, rfl⟩ := decode_eq_ok_iff.1 h
  rw [encode, Instr.mnemonic_ofParts, Instr.operand_ofParts hfits, ← hop, wordOf_fields]

/-! ### The opcode table -/

theorem wordOf_and (op op' : BitVec 3) (operand operand' : BitVec 64) :
    wordOf op operand &&& wordOf op' operand' = wordOf (op &&& op') (operand &&& operand') :=
  BitVec.and_append

theorem wordOf_inj {op op' : BitVec 3} {operand operand' : BitVec 64} :
    wordOf op operand = wordOf op' operand' ↔ op = op' ∧ operand = operand' := by
  constructor
  · intro h
    exact ⟨by simpa using congrArg opField h, by simpa using congrArg operandField h⟩
  · rintro ⟨rfl, rfl⟩
    rfl

/-- No bit above a field is 1 when masking the field away leaves nothing. -/
theorem operandFits_iff_and_mask {w : Nat} {operand : BitVec 64} :
    operandFits w operand = true ↔ operand &&& (BitVec.allOnes 64 <<< w) = 0#64 := by
  rw [operandFits_iff, BitVec.eq_of_getLsbD_eq_iff]
  constructor
  · intro h k hk
    by_cases hw : w ≤ k
    · simp [h k hw]
    · simp [Nat.lt_of_not_le hw]
  · intro h k hk
    by_cases h64 : k < 64
    · have hbit := h k h64
      simp only [BitVec.getLsbD_and, BitVec.getLsbD_shiftLeft, BitVec.getLsbD_allOnes, BitVec.getLsbD_zero] at hbit
      simpa [h64, Nat.not_lt.2 hk, Nat.sub_lt_of_lt h64] using hbit
    · exact BitVec.getLsbD_of_ge operand k (Nat.le_of_not_lt h64)

/-- A row's mask looks at the operation code and at the bits above the operand; its match asks the operation's code and
zeros (spec/opcode_table.json). -/
theorem opcodeRows_parts : ∀ r ∈ opcodeRows,
    r.mask = wordOf (BitVec.allOnes 3) (BitVec.allOnes 64 <<< r.mnemonic.operandWidth) ∧
      r.matchBits = wordOf r.mnemonic.op 0#64 := by decide

theorem opcodeRows_pairwise_mnemonic_ne : opcodeRows.Pairwise fun r t => r.mnemonic ≠ t.mnemonic := by decide

/-- What a row asks of a word, field by field. -/
theorem OpcodeRow.hits_iff {r : OpcodeRow} (hr : r ∈ opcodeRows) {q : ReqWord} : r.hits q = true ↔
    opField q = r.mnemonic.op ∧ operandFits r.mnemonic.operandWidth (operandField q) = true := by
  obtain ⟨hmask, hmatch⟩ := opcodeRows_parts r hr
  rw [OpcodeRow.hits, beq_iff_eq, hmask, hmatch, operandFits_iff_and_mask]
  nth_rw 1 [← wordOf_fields q]
  rw [wordOf_and, wordOf_inj, BitVec.and_allOnes]

/-- A word decodes to a row's operation when it meets the row. -/
theorem decodes_to_row_iff_hits {r : OpcodeRow} (hr : r ∈ opcodeRows) (q : ReqWord) :
    (∃ i, decode q = .ok i ∧ i.mnemonic = r.mnemonic) ↔ r.hits q = true := by
  rw [OpcodeRow.hits_iff hr]
  constructor
  · rintro ⟨i, hdec, hi⟩
    obtain ⟨m, hop, hfits, rfl⟩ := decode_eq_ok_iff.1 hdec
    rw [Instr.mnemonic_ofParts] at hi
    subst hi
    exact ⟨hop, hfits⟩
  · rintro ⟨hop, hfits⟩
    exact ⟨_, decode_eq_ok_iff.2 ⟨_, hop, hfits, rfl⟩, Instr.mnemonic_ofParts _ _⟩

/-! ### The statements on request words -/

/-- Settles O1: an encoding's two fields are the instruction's operation code and operand, and the operand fits. -/
theorem decodeOfEncodeIsTheInstruction : Obligations.DecodeOfEncodeIsTheInstruction :=
  fun i => ⟨i.wellFormed_eq_true, decode_encode i⟩

/-- Settles O2: an operand that fits is kept whole, and a word is its two fields. -/
theorem encodeOfDecodeIsTheWord : Obligations.EncodeOfDecodeIsTheWord :=
  fun _ _ => encode_of_decode

/-- Settles O3: a row asks of a word what the decoder asks, and two rows ask for two operation codes. -/
theorem decodeFollowsTheOpcodeTable : Obligations.DecodeFollowsTheOpcodeTable := by
  refine ⟨fun r hr q => decodes_to_row_iff_hits hr q,
    opcodeRows_pairwise_mnemonic_ne.imp_of_mem fun hr ht hne q => ?_⟩
  rintro ⟨hhits, hhits'⟩
  have hop := ((OpcodeRow.hits_iff hr).1 hhits).1
  have hop' := ((OpcodeRow.hits_iff ht).1 hhits').1
  exact hne (Mnemonic.op_injective (hop.symm.trans hop'))

/-- Settles O4: each word is the encoding of its instruction. -/
theorem writtenOutWordsDecode : Obligations.WrittenOutWordsDecode :=
  ⟨decode_encode (.pack 0x409FFC0000000000#64), decode_encode (.unpack 0x67FF#16), decode_encode (.lutBs 0x089#9),
    decode_encode (.lutOe 0x19#6), decode_encode (.lutM 0x7FF#11)⟩

end Sys2Proof

namespace Sys2Proof.Machine

/-! ### Reserved request words (spec 30 R71) -/

/-- The words with a bit above the operand field, by the number of the operation code: PACK's operand fills the field,
so it has none. -/
theorem exists_not_fits_iff {op : BitVec 3} {operand : BitVec 64} :
    (∃ m, Mnemonic.ofOp op = some m ∧ operandFits m.operandWidth operand = false) ↔
      (op.toNat = 1 ∧ 2 ^ 16 ≤ operand.toNat) ∨ (op.toNat = 2 ∧ 2 ^ 9 ≤ operand.toNat) ∨
        (op.toNat = 3 ∧ 2 ^ 6 ≤ operand.toNat) ∨ (op.toNat = 4 ∧ 2 ^ 11 ≤ operand.toNat) := by
  have hfull : operand.toNat < 2 ^ 64 := operand.isLt
  simp only [Mnemonic.ofOp_eq_some_iff, ← Bool.not_eq_true, operandFits_iff_lt, Nat.not_lt]
  constructor
  · rintro ⟨m, rfl, hle⟩
    cases m with
    | pack => exact absurd hfull (Nat.not_lt.2 hle)
    | unpack => exact .inl ⟨rfl, hle⟩
    | lutBs => exact .inr (.inl ⟨rfl, hle⟩)
    | lutOe => exact .inr (.inr (.inl ⟨rfl, hle⟩))
    | lutM => exact .inr (.inr (.inr ⟨rfl, hle⟩))
  · rintro (⟨hop, hle⟩ | ⟨hop, hle⟩ | ⟨hop, hle⟩ | ⟨hop, hle⟩)
    · exact ⟨.unpack, BitVec.eq_of_toNat_eq hop, hle⟩
    · exact ⟨.lutBs, BitVec.eq_of_toNat_eq hop, hle⟩
    · exact ⟨.lutOe, BitVec.eq_of_toNat_eq hop, hle⟩
    · exact ⟨.lutM, BitVec.eq_of_toNat_eq hop, hle⟩

/-- Settles O5: the decoder's three outcomes, one per clause; `exec` itself refuses nothing. -/
theorem reservedRequestWordsAreRefused : Obligations.ReservedRequestWordsAreRefused := by
  intro s q u rest hin op operand aboveField
  refine ⟨fun hop => ?_, fun habove => ?_, fun hop hnot r => ?_⟩
  · exact step_of_refused_word hin (decode_of_reservedOp (Mnemonic.ofOp_eq_none_iff.2 hop))
  · obtain ⟨m, hm, hfits⟩ := exists_not_fits_iff.2 habove
    exact step_of_refused_word hin (decode_of_not_fits hm hfits)
  · obtain ⟨m, hm⟩ : ∃ m, Mnemonic.ofOp (opField q) = some m :=
      Option.ne_none_iff_exists'.1 fun hnone => Nat.not_le.2 hop (Mnemonic.ofOp_eq_none_iff.1 hnone)
    have hfits : operandFits m.operandWidth (operandField q) = true := by
      by_contra hfits
      exact hnot (exists_not_fits_iff.1 ⟨m, hm, Bool.not_eq_true _ ▸ hfits⟩)
    rw [step_of_request hin (decode_of_fits hm hfits)]
    exact exec_not_refused _ s r

/-! ### The MANTISSA index (spec 30 R68) -/

/-- The index of a zero or denormal is 0 or 32, by its sign. -/
theorem expIdxOf_eq_zero_or_32_iff (h : Half) :
    ((expIdxOf h).toNat = 0 ∨ (expIdxOf h).toNat = 32) ↔ exp16 h = 0#5 := by
  have hsign := (sign16 h).isLt
  have hexp := (exp16 h).isLt
  rw [expIdxOf_toNat_fields, ← BitVec.toNat_inj, BitVec.toNat_zero]
  omega

/-- OFFSET at a half's index is 0 for a zero or denormal and 1024 for every other half. -/
theorem offsetContents_expIdxOf (h : Half) :
    offsetContents (expIdxOf h).toNat = if exp16 h = 0#5 then 0#16 else 1024#16 := by
  by_cases hexp : exp16 h = 0#5
  · rcases (expIdxOf_eq_zero_or_32_iff h).2 hexp with h0 | h32
    · simp [offsetContents, h0, hexp]
    · simp [offsetContents, h32, hexp]
  · obtain ⟨h0, h32⟩ := not_or.1 (mt (expIdxOf_eq_zero_or_32_iff h).1 hexp)
    simp [offsetContents, h0, h32, hexp]

/-- The index addition does not carry: OFFSET is at most 1024 and `mant_bits` is below 1024. -/
theorem mantIdxOf_filled_toNat (h : Half) : (mantIdxOf Tables.filled h).toNat =
    (Tables.filled.readOffset (expIdxOf h)).toNat + (man16 h).toNat := by
  have hman := (man16 h).isLt
  rw [mantIdxOf_toNat, Tables.filled_readOffset, offsetContents_expIdxOf]
  split_ifs <;> simp <;> omega

/-- The index is OFFSET's bit 10 before `mant_bits`. -/
theorem mantIdxOf_filled_eq_append (h : Half) : mantIdxOf Tables.filled h =
    (Tables.filled.readOffset (expIdxOf h)).extractLsb' 10 1 ++ man16 h := by
  refine BitVec.eq_of_toNat_eq ?_
  rw [mantIdxOf_filled_toNat, BitVec.toNat_append, Nat.shiftLeft_eq, Nat.mul_comm,
    ← Nat.two_pow_add_eq_or_of_lt (man16 h).isLt, Tables.filled_readOffset, offsetContents_expIdxOf]
  split_ifs <;> rfl

/-- Settles O24, by OFFSET's two values. -/
theorem mantissaIndexNeverCarries : Obligations.MantissaIndexNeverCarries := by
  intro h offset m
  have hm : m = offset.extractLsb' 10 1 ++ man16 h := mantIdxOf_filled_eq_append h
  refine ⟨mantIdxOf_filled_toNat h, Nat.le_of_lt_succ m.isLt, hm, ?_⟩
  have hoffset : offset = if exp16 h = 0#5 then 0#16 else 1024#16 := offsetContents_expIdxOf h
  rw [hm, BitVec.getLsbD_append, hoffset]
  by_cases hexp : exp16 h = 0#5 <;> simp [hexp]

/-! ### A word presented (log entry 18) -/

/-- A request word is read back from its number at any width that holds it. -/
theorem tableWord_toNat {nbits : Nat} (h : 67 ≤ nbits) (q : ReqWord) : tableWord nbits q.toNat = some q := by
  have hq : q.toNat < 2 ^ 67 := q.isLt
  have hmod : q.toNat % 2 ^ nbits = q.toNat :=
    Nat.mod_eq_of_lt (hq.trans_le (Nat.pow_le_pow_right (by decide) h))
  rw [tableWord, hmod, if_pos hq, BitVec.ofNat_toNat, BitVec.setWidth_eq]

theorem State.withFetchWord_toNat {nbits : Nat} (h : 67 ≤ nbits) (s : State) (q : ReqWord) :
    s.withFetchWord nbits q.toNat = s.present q := by
  simp [State.withFetchWord, tableWord_toNat h]

/-- Settles O7: the number is read back as the word, which is presented and decodes to the instruction. -/
theorem presentedWordIsRunNext : Obligations.PresentedWordIsRunNext := by
  intro s i nbits h
  rw [State.withFetchWord_toNat h]
  refine ⟨?_, rfl, step_of_request (State.present_inputs s (encode i)) (decode_encode i)⟩
  simp [decodeTableWord, tableWord_toNat h]

end Sys2Proof.Machine

namespace Sys2Proof.Machine

/-! ### The word a line names (spec 30 R73) -/

/-- The operand field of each operation holds no number of more hex digits than its literal has. -/
theorem two_pow_operandWidth_le (m : Mnemonic) : 2 ^ m.operandWidth ≤ 16 ^ hexDigitsOf m := by cases m <;> decide

theorem Instr.operand_lt (i : Instr) : i.operand.toNat < 16 ^ hexDigitsOf i.mnemonic :=
  (operandFits_iff_lt.1 i.wellFormed_eq_true).trans_le (two_pow_operandWidth_le i.mnemonic)

/-- A line whose operand stands for an instruction's operand names the instruction's request word. -/
theorem CoreLine.word_eq_encode {i : Instr} {operand : OperandText} {earlier : List Response}
    (h : operand.value earlier = some i.operand.toNat) :
    (CoreLine.mk i.mnemonic operand).word earlier = some (encode i) := by
  simp [CoreLine.word, h, Instr.operand_lt, encode]

theorem CoreLine.word_ofInstr (i : Instr) (earlier : List Response) :
    (CoreLine.ofInstr i).word earlier = some (encode i) :=
  CoreLine.word_eq_encode rfl

/-- `$n` stands for the latest response when there are `n - 1` before it. -/
theorem OperandText.value_response_last {n : Nat} {earlier : List Response} (h : earlier.length + 1 = n)
    (r : Response) : (OperandText.response n).value (earlier ++ [r]) = r.single := by
  subst h
  simp [OperandText.value]

/-- Settles O58: the expansion is the definition's, and `$n` stands for the UNPACK's response. -/
theorem rtripExpandsToUnpackAndPack : Obligations.RtripExpandsToUnpackAndPack := by
  intro h n rest earlier x
  constructor
  · have hop : (Instr.unpack h).operand.toNat = h.toNat := BitVec.toNat_setWidth_of_le (by decide)
    simp [expandFrom, CoreLine.ofInstr, Instr.mnemonic, hop]
  · intro hlen
    exact CoreLine.word_eq_encode (i := .pack x) (OperandText.value_response_last hlen (.unpack x))

/-! ### Hex text -/

theorem hexText_length (n v : Nat) : (hexText n v).length = n := by
  induction n generalizing v with
  | zero => rfl
  | succ n ih => simp [hexText, ih]

/-- A digit as written is read back. -/
theorem hexValue_hexChar {d : Nat} (h : d < 16) : hexValue (hexChar d) = some d := by
  revert d
  decide

/-- Digits read one part after the other. -/
theorem digitsValue_append (base v : Nat) (cs ds : List Char) :
    digitsValue base v (cs ++ ds) = (digitsValue base v cs).bind fun u => digitsValue base u ds := by
  induction cs generalizing v with
  | nil => rfl
  | cons c cs ih =>
    simp only [List.cons_append, digitsValue]
    split
    · split
      · exact ih _
      · rfl
    · rfl

/-- The `n` digits written of `v` are read as the low `n` digits of `v`. -/
theorem digitsValue_hexText (n v : Nat) : digitsValue 16 0 (hexText n v) = some (v % 16 ^ n) := by
  induction n generalizing v with
  | zero => simp [hexText, digitsValue, Nat.mod_one]
  | succ n ih =>
    have hd : v % 16 < 16 := Nat.mod_lt v (by decide)
    have hsplit : v % 16 ^ (n + 1) = v / 16 % 16 ^ n * 16 + v % 16 := by
      rw [Nat.pow_succ', Nat.mod_mul]
      ring
    simp [hexText, digitsValue_append, ih, digitsValue, hexValue_hexChar hd, hd, hsplit]

theorem readHex_hexLiteral {n v : Nat} (h : v < 16 ^ n) : readHex n (hexLiteral n v) = some v := by
  simp [readHex, hexLiteral, hexText_length, digitsValue_hexText, Nat.mod_eq_of_lt h]

theorem readOperand_hexLiteral {m : Mnemonic} {v : Nat} (h : v < 16 ^ hexDigitsOf m) :
    readOperand m (hexLiteral (hexDigitsOf m) v) = some (.literal v) := by
  have hread := readHex_hexLiteral h
  simp only [hexLiteral] at hread ⊢
  simp [readOperand, hread]

@[simp] theorem readMnemonic_mnemonicText (m : Mnemonic) : readMnemonic (mnemonicText m) = some m := by
  cases m <;> decide

/-! ### Words of a line -/

/-- A character that neither ends a word nor starts a comment. -/
abbrev IsWordChar (c : Char) : Prop := c ≠ ' ' ∧ c ≠ ';'

theorem wordsOf_cons_wordChar {c : Char} {cs w : List Char} {ws : List (List Char)} (hc : IsWordChar c)
    (h : wordsOf cs = w :: ws) : wordsOf (c :: cs) = (c :: w) :: ws := by
  obtain ⟨hblank, hcomment⟩ := hc
  simp [wordsOf, hblank, hcomment, h]

theorem wordsOf_ne_nil (cs : List Char) : wordsOf cs ≠ [] := by
  cases cs with
  | nil => simp [wordsOf]
  | cons c cs =>
    unfold wordsOf
    split
    · simp
    · split
      · simp
      · split <;> simp

theorem wordsOf_cons_blank (cs : List Char) : wordsOf (' ' :: cs) = [] :: wordsOf cs := by
  cases h : wordsOf cs with
  | nil => exact absurd h (wordsOf_ne_nil cs)
  | cons w ws => simp [wordsOf, h]

/-- A word in front of what begins with the end of a word. -/
theorem wordsOf_append {w cs : List Char} {ws : List (List Char)} (hw : ∀ c ∈ w, IsWordChar c)
    (h : wordsOf cs = [] :: ws) : wordsOf (w ++ cs) = w :: ws := by
  induction w with
  | nil => exact h
  | cons c w ih =>
    exact wordsOf_cons_wordChar (hw c (by simp)) (ih fun d hd => hw d (by simp [hd]))

/-- Two words with a blank between them. -/
theorem wordsOf_two {w v : List Char} (hw : ∀ c ∈ w, IsWordChar c) (hv : ∀ c ∈ v, IsWordChar c) :
    wordsOf (w ++ ' ' :: v) = [w, v] := by
  have hlast : wordsOf v = [v] := by simpa using wordsOf_append hv (cs := []) (ws := []) rfl
  exact wordsOf_append hw (by rw [wordsOf_cons_blank, hlast])

theorem mnemonicText_isWordChar (m : Mnemonic) : ∀ c ∈ mnemonicText m, IsWordChar c := by
  cases m <;> simp [mnemonicText, IsWordChar]

theorem hexChar_isWordChar {d : Nat} (h : d < 16) : IsWordChar (hexChar d) := by
  revert d
  decide

theorem hexText_isWordChar (n v : Nat) : ∀ c ∈ hexText n v, IsWordChar c := by
  induction n generalizing v with
  | zero => simp [hexText]
  | succ n ih =>
    intro c hc
    rcases List.mem_append.1 hc with hc | hc
    · exact ih _ c hc
    · rw [List.mem_singleton.1 hc]
      exact hexChar_isWordChar (Nat.mod_lt v (by decide))

theorem hexLiteral_isWordChar (n v : Nat) : ∀ c ∈ hexLiteral n v, IsWordChar c := by
  simp only [hexLiteral, List.forall_mem_cons]
  exact ⟨by decide, by decide, hexText_isWordChar n v⟩

/-! ### A line of text -/

theorem wordsOf_text (i : Instr) :
    wordsOf (Instr.text i) = [mnemonicText i.mnemonic, hexLiteral (hexDigitsOf i.mnemonic) i.operand.toNat] :=
  wordsOf_two (mnemonicText_isWordChar _) (hexLiteral_isWordChar _ _)

/-- An operation's name is not empty, not the arrow, and no pseudo-instruction's. -/
theorem mnemonicText_not_reserved (m : Mnemonic) : mnemonicText m ≠ [] ∧ mnemonicText m ≠ ['-', '>'] ∧
    mnemonicText m ≠ ['P', 'A', 'C', 'K', 'D'] ∧ mnemonicText m ≠ ['R', 'T', 'R', 'I', 'P'] := by
  cases m <;> decide

/-- A line of an operation's name and an operand is read as the operation's line. -/
theorem readLine_of_words {cs operand : List Char} {m : Mnemonic} {o : OperandText}
    (hwords : wordsOf cs = [mnemonicText m, operand]) (hne : operand ≠ []) (harrow : operand ≠ ['-', '>'])
    (ho : readOperand m operand = some o) : readLine cs = some (.core ⟨m, o⟩) := by
  obtain ⟨hname, hnameArrow, hpackd, hrtrip⟩ := mnemonicText_not_reserved m
  simp [readLine, hwords, hne, harrow, hname, hnameArrow, hpackd, hrtrip, ho]

/-- Settles O57: the two words of the text are read back one by one. -/
theorem textReadsBackAsItsWord : Obligations.TextReadsBackAsItsWord := by
  intro i earlier
  refine ⟨?_, CoreLine.word_ofInstr i earlier⟩
  exact readLine_of_words (wordsOf_text i) (by simp [hexLiteral]) (by simp [hexLiteral])
    (readOperand_hexLiteral (Instr.operand_lt i))

end Sys2Proof.Machine
end

section
/-! The statements of spec 40: the three table reads, and what the five tables hold. -/

namespace Sys2Proof.Machine

/-! ### A completed transaction, field by field -/

/-- Completing drives ports, takes the request and adds the response; nothing else changes. -/
theorem completed_eq (i : Instr) (s : State) : completed i s =
    { s with
      ports := (completed i s).ports
      inputs := s.inputs.tail
      responses := s.responses ++ [responseIn i s] } := by cases i <;> rfl

/-- From a state that meets the invariant, a driven transaction completes with the response of the constant tables. -/
theorem exec_completes_of_inv {i : Instr} {s : State} (hinv : s.Inv) (hv : s.tablesValid = true)
    (hd : s.operandUndriven i.mnemonic.operandWidth = false) : exec i s = .next
      { s with
        ports := (completed i s).ports
        inputs := s.inputs.tail
        responses := s.responses ++ [responseOf s.cfg i] } := by
  have hfilled : s.tables = Tables.filled := ((State.inv_iff_of_valid hv).1 hinv).1
  rw [exec_completes hv hd, ← responseIn_of_filled hfilled, ← completed_eq]

/-! ### The renormalization loop (spec 40 R85) -/

/-- The loop's test: bit 23 of a number below 2^24 is its leading bit. -/
theorem and_bit23_eq_zero_iff {m : Nat} (h : m < 2 ^ 24) : m &&& 0x00800000 = 0 ↔ m < 2 ^ 23 := by
  rw [show 0x00800000 = 2 ^ 23 from rfl, Nat.and_two_pow, Nat.testBit_eq_decide_div_mod_eq]
  have hbit : m / 2 ^ 23 % 2 = 0 ↔ m < 2 ^ 23 := by omega
  simpa using hbit

/-- Where `k` passes bring the leading bit to bit 23, the loop makes those `k` passes and no other, whatever fuel it has
left. -/
theorem renormLoop_of_leading_bit {k fuel m : Nat} (hfuel : k ≤ fuel) (hlow : 2 ^ 23 ≤ m * 2 ^ k)
    (hhigh : m * 2 ^ k < 2 ^ 24) (acc : Int) :
    renormLoop fuel m acc = (m * 2 ^ k, acc - (k : Int) * 0x00800000) := by
  induction k generalizing fuel m acc with
  | zero =>
    rw [pow_zero, mul_one] at hlow hhigh
    cases fuel with
    | zero => simp [renormLoop]
    | succ fuel =>
      have hstop : ¬ m &&& 0x00800000 = 0 := mt (and_bit23_eq_zero_iff hhigh).1 (Nat.not_lt.2 hlow)
      simp [renormLoop, hstop]
  | succ k ih =>
    cases fuel with
    | zero => exact absurd hfuel (Nat.not_succ_le_zero k)
    | succ fuel =>
      have hdouble : m <<< 1 * 2 ^ k = m * 2 ^ (k + 1) := by rw [Nat.shiftLeft_eq, pow_succ]; ring
      have hm : m < 2 ^ 23 := by
        have hle : m ≤ m * 2 ^ k := Nat.le_mul_of_pos_right m (Nat.two_pow_pos k)
        rw [pow_succ, ← mul_assoc] at hhigh
        omega
      have hpass : m &&& 0x00800000 = 0 := (and_bit23_eq_zero_iff (by omega)).2 hm
      rw [renormLoop, if_pos hpass,
        ih (Nat.le_of_succ_le_succ hfuel) (hdouble ▸ hlow) (hdouble ▸ hhigh), hdouble]
      congr 1
      push_cast
      ring

/-- A leading bit `p` shifted left by `23 - p` stands at bit 23. -/
theorem shifted_log_bounds {i p : Nat} (hp : p ≤ 9) (hlow : 2 ^ p ≤ i) (hhigh : i < 2 ^ (p + 1)) :
    2 ^ 23 ≤ i * 2 ^ (23 - p) ∧ i * 2 ^ (23 - p) < 2 ^ 24 := by
  constructor
  · calc 2 ^ 23 = 2 ^ p * 2 ^ (23 - p) := by rw [← pow_add, show p + (23 - p) = 23 by omega]
      _ ≤ i * 2 ^ (23 - p) := Nat.mul_le_mul_right _ hlow
  · calc i * 2 ^ (23 - p) < 2 ^ (p + 1) * 2 ^ (23 - p) := Nat.mul_lt_mul_of_pos_right hhigh (Nat.two_pow_pos _)
      _ = 2 ^ 24 := by rw [← pow_add, show p + 1 + (23 - p) = 24 by omega]

/-- The loop's result on `i` with leading bit `p`: `10 - p` passes bring that bit from `p + 13` to 23. -/
theorem renormLoop_of_log {i p fuel : Nat} (hp : p ≤ 9) (hlow : 2 ^ p ≤ i) (hhigh : i < 2 ^ (p + 1))
    (hfuel : 10 ≤ fuel) :
    renormLoop fuel (i <<< 13) 0 = (i * 2 ^ (23 - p), -(((10 - p : Nat) : Int) * 0x00800000)) := by
  have hshift : i <<< 13 * 2 ^ (10 - p) = i * 2 ^ (23 - p) := by
    rw [Nat.shiftLeft_eq, mul_assoc, ← pow_add, show 13 + (10 - p) = 23 - p by omega]
  obtain ⟨hlow', hhigh'⟩ := shifted_log_bounds hp hlow hhigh
  rw [renormLoop_of_leading_bit (k := 10 - p) (by omega) (hshift ▸ hlow') (hshift ▸ hhigh'), hshift, zero_sub]

/-- The leading bit of a MANTISSA index below 1024 is one of its bits 0 to 9. -/
theorem leading_bit_le_nine {i p : Nat} (hi : i ≤ 1023) (hlow : 2 ^ p ≤ i) : p ≤ 9 :=
  Nat.le_of_lt_succ ((Nat.pow_lt_pow_iff_right (by decide : 1 < 2)).1 (by omega : 2 ^ p < 2 ^ 10))

/-! ### MANTISSA (spec 40 R84 to R87) -/

/-- Clearing bit 23 of a number below 2^24 leaves its low 23 bits. -/
theorem ofNat_and_not_bit23 {m : Nat} (h : m < 2 ^ 24) :
    BitVec.ofNat 32 m &&& ~~~0x00800000#32 = BitVec.ofNat 32 (m &&& 0x007FFFFF) := by
  have hlow : m &&& 0x00FFFFFF = m := by
    rw [show 0x00FFFFFF = 2 ^ 24 - 1 from rfl, Nat.and_two_pow_sub_one_eq_mod, Nat.mod_eq_of_lt h]
  rw [← hlow, BitVec.ofNat_and, BitVec.and_assoc, Nat.and_assoc, BitVec.ofNat_and]
  rfl

/-- `renorm` in closed form: the fraction below the leading bit `p`, under the exponent field `p + 103`. -/
theorem renorm_of_log {i p : Nat} (hi : i ≤ 1023) (hlow : 2 ^ p ≤ i) (hhigh : i < 2 ^ (p + 1)) :
    renorm i = BitVec.ofNat 32 (((p + 103) <<< 23) ||| ((i <<< (23 - p)) &&& 0x007FFFFF)) := by
  have hp : p ≤ 9 := leading_bit_le_nine hi hlow
  obtain ⟨-, hm⟩ := shifted_log_bounds hp hlow hhigh
  have hexp : -(((10 - p : Nat) : Int) * (0x00800000 : Int)) + (0x38800000 : Int) =
      (((p + 103) <<< 23 : Nat) : Int) := by
    rw [Nat.shiftLeft_eq]; omega
  rw [renorm, renormLoop_of_log hp hlow hhigh (Nat.le_refl 10), hexp, BitVec.ofInt_natCast,
    ofNat_and_not_bit23 hm, ← BitVec.ofNat_or, Nat.or_comm, Nat.shiftLeft_eq i]

theorem mantissaContents_of_lt {i : Nat} (hpos : 1 ≤ i) (hi : i ≤ 1023) : mantissaContents i = renorm i := by
  rw [mantissaContents, if_neg (by omega), if_pos (by omega)]

theorem mantissaContents_toNat_of_ge {i : Nat} (hlow : 1024 ≤ i) (hhigh : i ≤ 2047) :
    (mantissaContents i).toNat = 0x38000000 + (i - 1024) * 2 ^ 13 := by
  rw [mantissaContents, if_neg (by omega), if_neg (by omega), BitVec.toNat_add, BitVec.toNat_ofNat,
    BitVec.toNat_ofNat, Nat.shiftLeft_eq]
  omega

/-! ### BASE and SHIFT (spec 40 R81 to R83), by the raw exponent -/

theorem baseContents_of_lt {idx : Nat} (h : idx < 256) : baseContents idx = basePositive idx := if_pos h

/-- A negative key's entry is the positive key's with bit 15 set. -/
theorem baseContents_add_256 (idx : Nat) : baseContents (idx + 256) = basePositive idx ||| 0x8000#16 := by
  rw [baseContents, if_neg (by omega), Nat.add_sub_cancel]

theorem shiftContents_of_lt {idx : Nat} (h : idx < 256) : shiftContents idx = shiftPositive idx := if_pos h

theorem shiftContents_add_256 (idx : Nat) : shiftContents (idx + 256) = shiftPositive idx := by
  rw [shiftContents, if_neg (by omega), Nat.add_sub_cancel]

theorem basePositive_of_underflow {idx : Nat} (h : idx ≤ 102) : basePositive idx = 0x0000#16 := if_pos (by omega)

theorem basePositive_toNat_of_denormal {idx : Nat} (hlow : 103 ≤ idx) (hhigh : idx ≤ 112) :
    (basePositive idx).toNat = 2 ^ (idx - 103) := by
  have hshift : (-((idx : Int) - 127) - 14).toNat = 113 - idx := by omega
  rw [basePositive, if_neg (by omega), if_pos (by omega), hshift, BitVec.toNat_ushiftRight, Nat.shiftRight_eq_div_pow,
    show (0x0400#16).toNat = 2 ^ 10 from rfl, Nat.pow_div (by omega) (by decide),
    show 10 - (113 - idx) = idx - 103 by omega]

theorem basePositive_toNat_of_normal {idx : Nat} (hlow : 113 ≤ idx) (hhigh : idx ≤ 142) :
    (basePositive idx).toNat = (idx - 112) * 0x0400 := by
  have hexp : ((idx : Int) - 127 + 15).toNat = idx - 112 := by omega
  rw [basePositive, if_neg (by omega), if_neg (by omega), if_pos (by omega), hexp, BitVec.toNat_ofNat, Nat.shiftLeft_eq]
  omega

theorem basePositive_of_overflow {idx : Nat} (h : 143 ≤ idx) : basePositive idx = 0x7C00#16 := by
  rw [basePositive, if_neg (by omega), if_neg (by omega), if_neg (by omega)]

theorem shiftPositive_of_underflow {idx : Nat} (h : idx ≤ 102) : shiftPositive idx = 24#5 := if_pos (by omega)

theorem shiftPositive_toNat_of_denormal {idx : Nat} (hlow : 103 ≤ idx) (hhigh : idx ≤ 112) :
    (shiftPositive idx).toNat = 126 - idx := by
  have hshift : (-((idx : Int) - 127) - 1).toNat = 126 - idx := by omega
  rw [shiftPositive, if_neg (by omega), if_pos (by omega), hshift, BitVec.toNat_ofNat]
  omega

theorem shiftPositive_of_normal {idx : Nat} (hlow : 113 ≤ idx) (hhigh : idx ≤ 142) :
    shiftPositive idx = 13#5 := by
  rw [shiftPositive, if_neg (by omega), if_neg (by omega), if_pos (by omega)]

theorem shiftPositive_of_overflow {idx : Nat} (hlow : 143 ≤ idx) (hhigh : idx ≤ 254) :
    shiftPositive idx = 24#5 := by
  rw [shiftPositive, if_neg (by omega), if_neg (by omega), if_neg (by omega), if_pos (by omega)]

theorem basePositive_lt (idx : Nat) : (basePositive idx).toNat < 2 ^ 15 := by
  rcases (by omega : idx ≤ 102 ∨ (103 ≤ idx ∧ idx ≤ 112) ∨ (113 ≤ idx ∧ idx ≤ 142) ∨ 143 ≤ idx) with
    hunder | ⟨hlow, hhigh⟩ | ⟨hlow, hhigh⟩ | hover
  · simp [basePositive_of_underflow hunder]
  · rw [basePositive_toNat_of_denormal hlow hhigh]
    exact Nat.pow_lt_pow_right (by decide) (by omega)
  · rw [basePositive_toNat_of_normal hlow hhigh]
    omega
  · simp [basePositive_of_overflow hover]

/-- The sign bit stands above every BASE entry of a positive key. -/
theorem basePositive_or_sign_toNat (idx : Nat) :
    (basePositive idx ||| 0x8000#16).toNat = 0x8000 + (basePositive idx).toNat := by
  rw [BitVec.toNat_or, Nat.or_comm, show (0x8000#16).toNat = 2 ^ 15 * 1 from rfl,
    ← Nat.two_pow_add_eq_or_of_lt (basePositive_lt idx)]

/-- `idx | 0x100` is the key of the same exponent with the sign bit set. -/
theorem key_or_sign_toNat {idx : Nat} (h : idx < 256) : (BitVec.ofNat 9 idx ||| 0x100#9).toNat = idx + 256 := by
  rw [BitVec.toNat_or, Nat.or_comm, show (0x100#9).toNat = 2 ^ 8 * 1 from rfl, BitVec.toNat_ofNat,
    Nat.mod_eq_of_lt (by omega), ← Nat.two_pow_add_eq_or_of_lt h, Nat.add_comm]

/-! ### EXPONENT and OFFSET (spec 40 R88, R89) -/

theorem exponentContents_toNat_of_positive {i : Nat} (h : i ≤ 30) : (exponentContents i).toNat = i * 2 ^ 23 := by
  rcases Nat.eq_zero_or_pos i with rfl | hpos
  · rfl
  · rw [exponentContents, if_neg (by omega), if_pos h, BitVec.toNat_ofNat, Nat.shiftLeft_eq]
    omega

theorem exponentContents_toNat_of_negative {i : Nat} (hlow : 32 ≤ i) (hhigh : i ≤ 62) :
    (exponentContents i).toNat = 0x80000000 + (i - 32) * 2 ^ 23 := by
  rcases Nat.eq_or_lt_of_le hlow with rfl | hlt
  · rfl
  · rw [exponentContents, if_neg (by omega), if_neg (by omega), if_neg (by omega), if_neg (by omega),
      if_pos hhigh, BitVec.toNat_add, BitVec.toNat_ofNat, BitVec.toNat_ofNat, Nat.shiftLeft_eq]
    omega

theorem offsetContents_of_ne {i : Nat} (h0 : i ≠ 0) (h32 : i ≠ 32) : offsetContents i = 1024#16 := by
  rw [offsetContents, if_neg h0, if_neg h32]

/-! ### The statements -/

/-- Settles O22: with leading bit `p` the loop makes `10 - p` passes, with 10 passes allowed or more. -/
theorem renormLoopEndsInTenPasses : Obligations.RenormLoopEndsInTenPasses := by
  intro i n hpos hi r
  have hlow : 2 ^ i.log2 ≤ i := Nat.log2_self_le (by omega)
  have hp : i.log2 ≤ 9 := leading_bit_le_nine hi hlow
  have hrun {fuel : Nat} := renormLoop_of_log (fuel := fuel) hp hlow Nat.lt_log2_self
  have hr : r = _ := hrun (Nat.le_refl 10)
  obtain ⟨hbit23, hbelow⟩ := shifted_log_bounds hp hlow Nat.lt_log2_self
  rw [hrun (Nat.le_add_right 10 n), hr]
  refine ⟨hbit23, hbelow, rfl, 10 - i.log2, by omega, by omega, ?_, rfl⟩
  rw [show 13 + (10 - i.log2) = 23 - i.log2 by omega]

/-- Settles O21: entry by entry, `renorm` in closed form below 1024 and the sum of R87 from there on. -/
theorem mantissaTableInClosedForm : Obligations.MantissaTableInClosedForm := by
  refine ⟨rfl, fun i p hpos hi hlow hhigh => ?_, fun i hlow hhigh => ?_, rfl⟩
  · rw [Tables.filled_readMantissa, BitVec.toNat_ofNat, Nat.mod_eq_of_lt (by omega),
      mantissaContents_of_lt hpos hi, renorm_of_log hi hlow hhigh]
  · rw [Tables.filled_readMantissa, BitVec.toNat_ofNat, Nat.mod_eq_of_lt (by omega),
      mantissaContents_toNat_of_ge hlow hhigh]

/-- Settles O13: the response of the constant tables is the pair of entries. -/
theorem lutBsCompletesWithEntries : Obligations.LutBsCompletesWithEntries :=
  fun _ key hinv hv hd => exec_completes_of_inv (i := .lutBs key) hinv hv hd

/-- Settles O14: the response of the constant tables is the pair of entries. -/
theorem lutOeCompletesWithEntries : Obligations.LutOeCompletesWithEntries :=
  fun _ idx hinv hv hd => exec_completes_of_inv (i := .lutOe idx) hinv hv hd

/-- Settles O15: the response of the constant tables is the entry. -/
theorem lutMCompletesWithEntry : Obligations.LutMCompletesWithEntry :=
  fun _ idx hinv hv hd => exec_completes_of_inv (i := .lutM idx) hinv hv hd

/-- Settles O20, range by range of the positive key; a negative key's entries are those with the sign bit in BASE. -/
theorem baseAndShiftTablesByRange : Obligations.BaseAndShiftTablesByRange := by
  intro idx hidx base baseNeg shift shiftNeg
  have hkey : (BitVec.ofNat 9 idx).toNat = idx := Nat.mod_eq_of_lt (by omega)
  have hbase : base = (basePositive idx).toNat := by
    simp only [base, Tables.filled_readBase, hkey, baseContents_of_lt hidx]
  have hbaseNeg : baseNeg = 0x8000 + (basePositive idx).toNat := by
    simp only [baseNeg, Tables.filled_readBase, key_or_sign_toNat hidx, baseContents_add_256,
      basePositive_or_sign_toNat]
  have hshift : shift = (shiftPositive idx).toNat := by
    simp only [shift, Tables.filled_readShift, hkey, shiftContents_of_lt hidx]
  have hshiftNeg : shiftNeg = (shiftPositive idx).toNat := by
    simp only [shiftNeg, Tables.filled_readShift, key_or_sign_toNat hidx, shiftContents_add_256]
  rw [hbase, hbaseNeg, hshift, hshiftNeg]
  refine ⟨rfl, fun hunder => ?_, fun ⟨hlow, hhigh⟩ => ?_, fun ⟨hlow, hhigh⟩ => ?_, fun ⟨hlow, hhigh⟩ => ?_,
    fun hmax => ?_⟩
  · simp [basePositive_of_underflow hunder, shiftPositive_of_underflow hunder]
  · simp [basePositive_toNat_of_denormal hlow hhigh, shiftPositive_toNat_of_denormal hlow hhigh]
  · simp [basePositive_toNat_of_normal hlow hhigh, shiftPositive_of_normal hlow hhigh]
  · simp [basePositive_of_overflow hlow, shiftPositive_of_overflow hlow hhigh]
  · subst hmax
    decide

/-- Settles O23: by the two signs' ranges, with the ends 0, 31, 32 and 63 evaluated. -/
theorem exponentAndOffsetTables : Obligations.ExponentAndOffsetTables := by
  intro i hi exponent offset
  have hidx : (BitVec.ofNat 6 i).toNat = i := Nat.mod_eq_of_lt hi
  have hexponent : exponent = (exponentContents i).toNat := by
    simp only [exponent, Tables.filled_readExponent, hidx]
  have hoffset : offset = (offsetContents i).toNat := by simp only [offset, Tables.filled_readOffset, hidx]
  rw [hexponent, hoffset]
  refine ⟨fun h => ?_, fun ⟨hlow, hhigh⟩ => ?_, fun h => ?_, fun h => ?_, fun ⟨hlow, hhigh⟩ => ?_, fun h => ?_⟩
  · subst h; decide
  · simp [exponentContents_toNat_of_positive hhigh, offsetContents_of_ne (by omega : i ≠ 0) (by omega)]
  · subst h; decide
  · subst h; decide
  · simp [exponentContents_toNat_of_negative (by omega : 32 ≤ i) hhigh,
      offsetContents_of_ne (by omega : i ≠ 0) (by omega)]
  · subst h; decide

end Sys2Proof.Machine
end

section
/-! The statements of spec 41: PACK32 and NARROW as operations on magnitudes, and the laws of PACK. -/

namespace Sys2Proof.Machine

/-! ### Disjoint addends -/

/-- Where one number is a multiple of `2^i` and the other below it, no bit is common: the sum is the OR. -/
theorem add_eq_or_of_dvd_of_lt {a b i : Nat} (ha : 2 ^ i ∣ a) (hb : b < 2 ^ i) : a + b = a ||| b := by
  obtain ⟨c, rfl⟩ := ha
  exact Nat.two_pow_add_eq_or_of_lt hb c

theorem and_eq_zero_of_dvd_of_lt {a b i : Nat} (ha : 2 ^ i ∣ a) (hb : b < 2 ^ i) : a &&& b = 0 := by
  obtain ⟨c, rfl⟩ := ha
  refine Nat.eq_of_testBit_eq fun j => ?_
  rw [Nat.testBit_and, Nat.testBit_two_pow_mul, Nat.zero_testBit]
  by_cases hj : i ≤ j
  · simp [Nat.testBit_lt_two_pow (hb.trans_le (Nat.pow_le_pow_right (by decide) hj))]
  · simp [hj]

theorem toNat_or_of_dvd_of_lt {w : Nat} {a b : BitVec w} (i : Nat) (ha : 2 ^ i ∣ a.toNat) (hb : b.toNat < 2 ^ i) :
    (a ||| b).toNat = a.toNat + b.toNat := by
  rw [BitVec.toNat_or, add_eq_or_of_dvd_of_lt ha hb]

/-! ### A sign bit above a magnitude -/

theorem signBit16_toNat (s : BitVec 1) : (s.setWidth 16 <<< 15 : Half).toNat = s.toNat * 2 ^ 15 := by
  revert s; decide

theorem signBit32_toNat (s : BitVec 1) : (s.setWidth 32 <<< 31 : Single).toNat = s.toNat * 2 ^ 31 := by
  revert s; decide

theorem signBit16_or_toNat (s : BitVec 1) {m : Half} (h : m.toNat < 2 ^ 15) :
    (s.setWidth 16 <<< 15 ||| m).toNat = s.toNat * 2 ^ 15 + m.toNat := by
  rw [toNat_or_of_dvd_of_lt 15 (signBit16_toNat s ▸ Nat.dvd_mul_left _ _) h, signBit16_toNat]

theorem signBit32_or_toNat (s : BitVec 1) {m : Single} (h : m.toNat < 2 ^ 31) :
    (s.setWidth 32 <<< 31 ||| m).toNat = s.toNat * 2 ^ 31 + m.toNat := by
  rw [toNat_or_of_dvd_of_lt 31 (signBit32_toNat s ▸ Nat.dvd_mul_left _ _) h, signBit32_toNat]

/-! ### PACK32's two addends (spec 41 R116, R117) -/

theorem exp32_lt (b : Single) : (exp32 b).toNat < 256 := (exp32 b).isLt

/-- A key is the exponent field, with bit 8 set where the pattern is negative. -/
theorem keyOf_toNat_cases (b : Single) :
    ((sign32 b).toNat = 0 ∧ (keyOf b).toNat = (exp32 b).toNat) ∨
      ((sign32 b).toNat = 1 ∧ (keyOf b).toNat = (exp32 b).toNat + 256) := by
  have hkey := keyOf_toNat_fields b
  have hsign := (sign32 b).isLt
  omega

/-- BASE at a binary32 pattern's key: the sign bit above the entry of the exponent field. -/
theorem readBase_keyOf_toNat (b : Single) : (Tables.filled.readBase (keyOf b)).toNat =
    (sign32 b).toNat * 2 ^ 15 + (basePositive (exp32 b).toNat).toNat := by
  rw [Tables.filled_readBase]
  rcases keyOf_toNat_cases b with ⟨hs, hkey⟩ | ⟨hs, hkey⟩ <;> rw [hs, hkey]
  · rw [baseContents_of_lt (exp32_lt b), Nat.zero_mul, Nat.zero_add]
  · rw [baseContents_add_256, basePositive_or_sign_toNat]
    rfl

/-- SHIFT at a binary32 pattern's key depends on the exponent field alone. -/
theorem readShift_keyOf (b : Single) : Tables.filled.readShift (keyOf b) = shiftPositive (exp32 b).toNat := by
  rw [Tables.filled_readShift]
  rcases keyOf_toNat_cases b with ⟨-, hkey⟩ | ⟨-, hkey⟩ <;> rw [hkey]
  · rw [shiftContents_of_lt (exp32_lt b)]
  · rw [shiftContents_add_256]

/-- The shifted mantissa, the addend of SHIFT. -/
def packShifted (b : Single) : Nat := (man32 b).toNat >>> (shiftPositive (exp32 b).toNat).toNat

theorem packShifted_eq_div (b : Single) :
    packShifted b = (man32 b).toNat / 2 ^ (shiftPositive (exp32 b).toNat).toNat := Nat.shiftRight_eq_div_pow _ _

/-- A shift of 24 takes out the whole mantissa. -/
theorem packShifted_eq_zero {b : Single} (h : (exp32 b).toNat ≤ 102 ∨ 143 ≤ (exp32 b).toNat ∧ (exp32 b).toNat ≤ 254) :
    packShifted b = 0 := by
  have hshift : (shiftPositive (exp32 b).toNat).toNat = 24 := by
    rcases h with h | ⟨hlow, hhigh⟩
    · rw [shiftPositive_of_underflow h]; rfl
    · rw [shiftPositive_of_overflow hlow hhigh]; rfl
  have := (man32 b).isLt
  rw [packShifted_eq_div, hshift]
  omega

theorem packShifted_of_denormal {b : Single} (hlow : 103 ≤ (exp32 b).toNat) (hhigh : (exp32 b).toNat ≤ 112) :
    packShifted b = (man32 b).toNat / 2 ^ (126 - (exp32 b).toNat) := by
  rw [packShifted_eq_div, shiftPositive_toNat_of_denormal hlow hhigh]

theorem packShifted_of_normal {b : Single} (hlow : 113 ≤ (exp32 b).toNat) (hhigh : (exp32 b).toNat ≤ 142) :
    packShifted b = (man32 b).toNat / 2 ^ 13 := by
  rw [packShifted_eq_div, shiftPositive_of_normal hlow hhigh]; rfl

theorem packShifted_of_max {b : Single} (h : (exp32 b).toNat = 255) : packShifted b = (man32 b).toNat / 2 ^ 13 := by
  rw [packShifted_eq_div, h]; rfl

theorem packShifted_lt_of_denormal {b : Single} (hlow : 103 ≤ (exp32 b).toNat) (hhigh : (exp32 b).toNat ≤ 112) :
    packShifted b < 2 ^ ((exp32 b).toNat - 103) := by
  rw [packShifted_of_denormal hlow hhigh, Nat.div_lt_iff_lt_mul (Nat.two_pow_pos _), ← pow_add,
    show (exp32 b).toNat - 103 + (126 - (exp32 b).toNat) = 23 by omega]
  exact (man32 b).isLt

/-- Below the lowest set bit of BASE's entry there is room for the shifted mantissa, in each range of the exponent
field (spec 41 R117). -/
theorem exists_packShifted_lt_and_dvd (b : Single) :
    ∃ i ≤ 10, packShifted b < 2 ^ i ∧ 2 ^ i ∣ (basePositive (exp32 b).toNat).toNat := by
  have hman := (man32 b).isLt
  rcases (by have := exp32_lt b; omega : ((exp32 b).toNat ≤ 102 ∨ 143 ≤ (exp32 b).toNat ∧ (exp32 b).toNat ≤ 254) ∨
      (103 ≤ (exp32 b).toNat ∧ (exp32 b).toNat ≤ 112) ∨ (113 ≤ (exp32 b).toNat ∧ (exp32 b).toNat ≤ 142) ∨
      (exp32 b).toNat = 255) with hzero | ⟨hlow, hhigh⟩ | ⟨hlow, hhigh⟩ | hmax
  · exact ⟨0, by decide, by simp [packShifted_eq_zero hzero], one_dvd _⟩
  · refine ⟨(exp32 b).toNat - 103, by omega, packShifted_lt_of_denormal hlow hhigh, ?_⟩
    rw [basePositive_toNat_of_denormal hlow hhigh]
  · refine ⟨10, by decide, by rw [packShifted_of_normal hlow hhigh]; omega, ?_⟩
    rw [basePositive_toNat_of_normal hlow hhigh]
    exact Nat.dvd_mul_left _ _
  · refine ⟨10, by decide, by rw [packShifted_of_max hmax]; omega, ?_⟩
    rw [hmax]; decide

/-- The magnitude PACK32 gives: the sum of the two entries' parts below the sign bit. -/
def packMagnitude (b : Single) : Nat := (basePositive (exp32 b).toNat).toNat + packShifted b

theorem packMagnitude_lt (b : Single) : packMagnitude b < 2 ^ 15 := by
  obtain ⟨i, hi, hlt, hdvd⟩ := exists_packShifted_lt_and_dvd b
  have hbase := basePositive_lt (exp32 b).toNat
  obtain ⟨q, hq⟩ := hdvd
  rw [packMagnitude, hq]
  have hroom : q + 1 ≤ 2 ^ (15 - i) := by
    refine Nat.lt_of_mul_lt_mul_left (a := 2 ^ i) ?_
    rwa [← hq, ← pow_add, show i + (15 - i) = 15 by omega]
  calc 2 ^ i * q + packShifted b < 2 ^ i * (q + 1) := by rw [Nat.mul_succ]; omega
    _ ≤ 2 ^ i * 2 ^ (15 - i) := Nat.mul_le_mul_left _ hroom
    _ = 2 ^ 15 := by rw [← pow_add, show i + (15 - i) = 15 by omega]

/-- PACK32 is the sign above the magnitude: its sum is below 2^16, so nothing is cut. -/
theorem pack32_filled_toNat (b : Single) :
    (pack32 Tables.filled b).toNat = (sign32 b).toNat * 2 ^ 15 + packMagnitude b := by
  have hs := (sign32 b).isLt
  have hm := packMagnitude_lt b
  rw [pack32_toNat, readBase_keyOf_toNat, readShift_keyOf]
  change (_ + packShifted b) % _ = _
  rw [packMagnitude] at hm ⊢
  omega

/-! ### PACK32 by range of the exponent field (spec 41 R118) -/

theorem packMagnitude_of_underflow {b : Single} (h : (exp32 b).toNat ≤ 102) : packMagnitude b = 0 := by
  rw [packMagnitude, packShifted_eq_zero (.inl h), basePositive_of_underflow h]; rfl

theorem packMagnitude_of_denormal {b : Single} (hlow : 103 ≤ (exp32 b).toNat) (hhigh : (exp32 b).toNat ≤ 112) :
    packMagnitude b = (2 ^ 23 + (man32 b).toNat) / 2 ^ (126 - (exp32 b).toNat) := by
  rw [packMagnitude, basePositive_toNat_of_denormal hlow hhigh, packShifted_of_denormal hlow hhigh,
    ← Nat.mul_add_div (Nat.two_pow_pos _), ← pow_add,
    show 126 - (exp32 b).toNat + ((exp32 b).toNat - 103) = 23 by omega]

theorem packMagnitude_of_normal {b : Single} (hlow : 113 ≤ (exp32 b).toNat) (hhigh : (exp32 b).toNat ≤ 142) :
    packMagnitude b = ((exp32 b).toNat - 112) * 2 ^ 10 + (man32 b).toNat / 2 ^ 13 := by
  rw [packMagnitude, basePositive_toNat_of_normal hlow hhigh, packShifted_of_normal hlow hhigh]
  rfl

theorem packMagnitude_of_overflow {b : Single} (hlow : 143 ≤ (exp32 b).toNat) (hhigh : (exp32 b).toNat ≤ 254) :
    packMagnitude b = 0x7C00 := by
  rw [packMagnitude, packShifted_eq_zero (.inr ⟨hlow, hhigh⟩), basePositive_of_overflow hlow]; rfl

theorem packMagnitude_of_max {b : Single} (h : (exp32 b).toNat = 255) :
    packMagnitude b = 0x7C00 + (man32 b).toNat / 2 ^ 13 := by
  rw [packMagnitude, packShifted_of_max h, basePositive_of_overflow (by omega)]; rfl

/-- PACK32 of a magnitude, written as a pattern under the sign bit. -/
theorem pack32_filled_eq_signBit_or {b : Single} {m : Half} (h : m.toNat = packMagnitude b) :
    pack32 Tables.filled b = (sign32 b).setWidth 16 <<< 15 ||| m :=
  BitVec.eq_of_toNat_eq (by rw [pack32_filled_toNat, signBit16_or_toNat _ (h ▸ packMagnitude_lt b), h])

theorem pack32_filled_of_underflow {b : Single} (h : (exp32 b).toNat ≤ 102) :
    pack32 Tables.filled b = (sign32 b).setWidth 16 <<< 15 := by
  rw [pack32_filled_eq_signBit_or (m := 0#16) (packMagnitude_of_underflow h).symm, BitVec.or_zero]

/-- `m32[22:13]`, the part of the mantissa a binary16 has room for. -/
theorem manTop_toNat (b : Single) :
    ((b.extractLsb' 13 10).setWidth 16 : Half).toNat = (man32 b).toNat / 2 ^ 13 := by
  rw [BitVec.toNat_setWidth, extractLsb'_toNat_div, man32_toNat]
  omega

/-- Settles O11: completion with the response of the constant tables, whose pattern is the sum's low 16 bits. -/
theorem packCompletesWithTableSum : Obligations.PackCompletesWithTableSum := by
  intro s x hinv hv hd b key mantissaBits
  rw [exec_completes_of_inv (i := .pack x) hinv hv hd]
  have hsum : packFunction s.cfg Tables.filled x = BitVec.ofNat 16
      ((baseContents key.toNat).toNat + (mantissaBits.toNat >>> (shiftContents key.toNat).toNat)) :=
    BitVec.eq_of_toNat_eq (by rw [packFunction, pack32_toNat, BitVec.toNat_ofNat]; rfl)
  rw [responseOf, hsum]
  rfl

/-- Settles O25: the sign and BASE's entry leave the low bits free that the shifted mantissa takes, range by range. -/
theorem packAdditionNeverCarries : Obligations.PackAdditionNeverCarries := by
  intro b base shifted e
  have hbase : base = (sign32 b).toNat * 2 ^ 15 + (basePositive e).toNat := readBase_keyOf_toNat b
  have hshifted : shifted = packShifted b := by simp only [shifted, readShift_keyOf]; rfl
  have hsign := (sign32 b).isLt
  have hman := (man32 b).isLt
  have hsum : base + shifted = (pack32 Tables.filled b).toNat := by
    rw [hbase, hshifted, pack32_filled_toNat, packMagnitude, Nat.add_assoc]
  have hlow15 : base &&& 0x7FFF = (basePositive e).toNat := by
    have := basePositive_lt e
    rw [show 0x7FFF = 2 ^ 15 - 1 from rfl, Nat.and_two_pow_sub_one_eq_mod, hbase]
    omega
  obtain ⟨i, hi, hlt, hdvd⟩ := exists_packShifted_lt_and_dvd b
  have hdvd' : 2 ^ i ∣ base := by
    rw [hbase]
    exact dvd_add ((pow_dvd_pow 2 (by omega)).mul_left _) hdvd
  rw [← hshifted] at hlt
  refine ⟨and_eq_zero_of_dvd_of_lt hdvd' hlt, by have := (pack32 Tables.filled b).isLt; omega, hsum.symm,
    add_eq_or_of_dvd_of_lt hdvd' hlt, fun ⟨hlow, hhigh⟩ => ⟨?_, ?_⟩, fun ⟨hlow, hhigh⟩ => ⟨?_, ?_⟩,
    fun h => hshifted.trans (packShifted_eq_zero h), fun h => ⟨?_, ?_⟩⟩
  · rw [show 0x03FF = 2 ^ 10 - 1 from rfl, Nat.and_two_pow_sub_one_eq_mod, hbase,
      basePositive_toNat_of_normal hlow hhigh]
    omega
  · rw [hshifted, packShifted_of_normal hlow hhigh]; omega
  · rw [hlow15, basePositive_toNat_of_denormal hlow hhigh, Nat.shiftRight_eq_div_pow,
      show 0x0400 = 2 ^ 10 from rfl, Nat.pow_div (by omega) (by decide), show 10 - (113 - e) = e - 103 by omega]
  · rw [hshifted, Nat.shiftRight_eq_div_pow,
      show 0x0400 = 2 ^ 10 from rfl, Nat.pow_div (by omega) (by decide), show 10 - (113 - e) = e - 103 by omega]
    exact packShifted_lt_of_denormal hlow hhigh
  · rw [hlow15, h]; rfl
  · rw [hshifted, packShifted_of_max h]; omega

/-- Settles O26: the magnitude of each range, as the pattern the table's row writes. -/
theorem packStageByExponentField : Obligations.PackStageByExponentField := by
  intro b s e m top h
  have hman := (man32 b).isLt
  have htop : top.toNat = (man32 b).toNat / 2 ^ 13 := manTop_toNat b
  refine ⟨pack32_filled_of_underflow, fun ⟨hlow, hhigh⟩ => ?_, fun ⟨hlow, hhigh⟩ => ?_, fun ⟨hlow, hhigh⟩ => ?_,
    fun hmax => ?_⟩
  · refine pack32_filled_eq_signBit_or ?_
    have hlt := packMagnitude_lt b
    rw [packMagnitude_of_denormal hlow hhigh] at hlt ⊢
    rw [BitVec.toNat_ofNat, ← add_eq_or_of_dvd_of_lt dvd_rfl m.isLt, Nat.shiftRight_eq_div_pow]
    exact Nat.mod_eq_of_lt (hlt.trans (by decide))
  · rw [BitVec.or_assoc]
    refine pack32_filled_eq_signBit_or ?_
    have hexp : (BitVec.ofNat 16 ((e - 112) <<< 10)).toNat = (e - 112) * 2 ^ 10 := by
      rw [BitVec.toNat_ofNat, Nat.shiftLeft_eq]; omega
    rw [toNat_or_of_dvd_of_lt 10 (hexp ▸ Nat.dvd_mul_left _ _) (by omega), hexp, htop]
    exact (packMagnitude_of_normal hlow hhigh).symm
  · exact pack32_filled_eq_signBit_or (packMagnitude_of_overflow hlow hhigh).symm
  · rw [BitVec.or_assoc]
    refine pack32_filled_eq_signBit_or ?_
    rw [toNat_or_of_dvd_of_lt 10 (by decide) (by omega), htop]
    exact (packMagnitude_of_max hmax).symm

/-! ### NaNs and infinities by their fields (spec 30 R61 to R63) -/

theorem class16_isNan_iff {h : Half} : (class16 h).isNan = true ↔ exp16 h = 31#5 ∧ man16 h ≠ 0#10 := by
  unfold class16
  split_ifs with h0 _ h31 _ _ <;> simp_all [FpClass.isNan]

theorem class16_eq_quietNan {h : Half} (hexp : exp16 h = 31#5) (hman : 2 ^ 9 ≤ (man16 h).toNat) :
    class16 h = .quietNan := by
  have hne : man16 h ≠ 0#10 := by rintro h0; simp [h0] at hman
  have hbit : (man16 h).getLsbD 9 = true := by
    have := (man16 h).isLt
    rw [BitVec.getLsbD, Nat.testBit_eq_decide_div_mod_eq, decide_eq_true_iff]
    omega
  simp [class16, hexp, hne, hbit]

theorem class32_isNan_iff {b : Single} : (class32 b).isNan = true ↔ exp32 b = 255#8 ∧ man32 b ≠ 0#23 := by
  unfold class32
  split_ifs with h0 _ h255 _ _ <;> simp_all [FpClass.isNan]

theorem class32_eq_infinity_iff {b : Single} : class32 b = .infinity ↔ exp32 b = 255#8 ∧ man32 b = 0#23 := by
  unfold class32
  split_ifs with h0 _ h255 _ _ <;> simp_all

theorem class64_isNan_iff {x : Double} : (class64 x).isNan = true ↔ exp64 x = 2047#11 ∧ frac64 x ≠ 0#52 := by
  unfold class64
  split_ifs with h0 _ hmax _ _ <;> simp_all [FpClass.isNan]

theorem class64_eq_infinity_iff {x : Double} : class64 x = .infinity ↔ exp64 x = 2047#11 ∧ frac64 x = 0#52 := by
  unfold class64
  split_ifs with h0 _ hmax _ _ <;> simp_all

/-! ### NARROW, one equation per case (spec 41 R111 to R115) -/

@[simp] theorem sign32_withSign32 (s : BitVec 1) (m : BitVec 31) : sign32 (withSign32 s m) = s :=
  BitVec.eq_of_toNat_eq (by rw [sign32_toNat, withSign32_toNat]; have := m.isLt; omega)

/-- A sign and a magnitude, the magnitude written as a whole pattern. -/
theorem withSign32_eq_signBit_or (s : BitVec 1) {m : BitVec 31} {M : Single} (h : M.toNat = m.toNat) :
    withSign32 s m = s.setWidth 32 <<< 31 ||| M :=
  BitVec.eq_of_toNat_eq (by rw [withSign32_toNat, signBit32_or_toNat _ (h ▸ m.isLt), h])

/-- The kept part after the rounding of spec 41 R113 and R115. -/
def rounded (c : Config) (kept r half : Nat) : Nat := if roundsUp c kept r half then kept + 1 else kept

theorem rounded_eq_ite (c : Config) (kept r half : Nat) : rounded c kept r half =
    if c.narrowRnd = .rne ∧ (half < r ∨ (r = half ∧ kept % 2 = 1)) then kept + 1 else kept := by
  simp [rounded, roundsUp]

theorem rounded_le (c : Config) (kept r half : Nat) : rounded c kept r half ≤ kept + 1 := by
  unfold rounded; split <;> omega

/-- The magnitude R113 truncates to, its exponent field `E - 896` above the 23 leading fraction bits. -/
def keptNormal (x : Double) : Nat := ((exp64 x).toNat - 896) * 2 ^ 23 + (frac64 x).toNat / 2 ^ 29

/-- The magnitude R115 truncates to: the significand shifted to units of 2^-149. -/
def keptTiny (x : Double) : Nat := (2 ^ 52 + (frac64 x).toNat) / 2 ^ (926 - (exp64 x).toNat)

/-- The bits R115 discards. -/
def discardedTiny (x : Double) : Nat := (2 ^ 52 + (frac64 x).toNat) % 2 ^ (926 - (exp64 x).toNat)

section
variable {x : Double} (c : Config)

theorem narrow_of_infinity (hexp : (exp64 x).toNat = 2047) (hfrac : frac64 x = 0#52) :
    narrow c x = withSign32 (sign64 x) 0x7F800000#31 := by
  have : exp64 x = 2047#11 := BitVec.eq_of_toNat_eq hexp
  simp [narrow, this, hfrac, narrowInfinity]

theorem narrow_of_nan (hexp : (exp64 x).toNat = 2047) (hfrac : frac64 x ≠ 0#52) :
    narrow c x = narrowNan c (sign64 x) (frac64 x) := by
  have : exp64 x = 2047#11 := BitVec.eq_of_toNat_eq hexp
  simp [narrow, this, hfrac]

theorem narrow_of_exp_zero (hexp : (exp64 x).toNat = 0) : narrow c x = withSign32 (sign64 x) 0#31 := by
  have : exp64 x = 0#11 := BitVec.eq_of_toNat_eq hexp
  simp [narrow, this, narrowZero]

/-- The case of a normal operand is chosen by its unbiased exponent. -/
theorem narrow_of_normal_exp (hlow : 1 ≤ (exp64 x).toNat) (hhigh : (exp64 x).toNat ≤ 2046) : narrow c x =
    if 1151 ≤ (exp64 x).toNat then narrowOverflow c (sign64 x)
    else if 897 ≤ (exp64 x).toNat then narrowNormal c (sign64 x) (((exp64 x).toNat : Int) - 1023) (frac64 x)
    else narrowSubnormal c (sign64 x) (((exp64 x).toNat : Int) - 1023) (frac64 x) := by
  have hmax : exp64 x ≠ 2047#11 := fun h => by simp [h] at hhigh
  have hzero : exp64 x ≠ 0#11 := fun h => by simp [h] at hlow
  have hover : (127 < ((exp64 x).toNat : Int) - 1023) = (1151 ≤ (exp64 x).toNat) := propext (by omega)
  have hnormal : (-126 ≤ ((exp64 x).toNat : Int) - 1023) = (897 ≤ (exp64 x).toNat) := propext (by omega)
  simp only [narrow, if_neg hmax, if_neg hzero, hover, hnormal]

theorem narrow_of_overflow (hlow : 1151 ≤ (exp64 x).toNat) (hhigh : (exp64 x).toNat ≤ 2046) :
    narrow c x = withSign32 (sign64 x) (if c.narrowRnd = .rne then 0x7F800000#31 else 0x7F7FFFFF#31) := by
  rw [narrow_of_normal_exp c (by omega) hhigh, if_pos hlow, narrowOverflow]
  cases c.narrowRnd <;> rfl

theorem narrow_of_normal (hlow : 897 ≤ (exp64 x).toNat) (hhigh : (exp64 x).toNat ≤ 1150) :
    narrow c x = withSign32 (sign64 x)
      (BitVec.ofNat 31 (rounded c (keptNormal x) ((frac64 x).toNat % 2 ^ 29) (2 ^ 28))) := by
  have hexp : (((exp64 x).toNat : Int) - 1023 + 127).toNat = (exp64 x).toNat - 896 := by omega
  have hfrac : ((frac64 x).extractLsb' 29 23).toNat = (frac64 x).toNat / 2 ^ 29 := by
    rw [extractLsb'_toNat_div]; have := (frac64 x).isLt; omega
  have hlowbits : ((frac64 x).extractLsb' 0 29).toNat = (frac64 x).toNat % 2 ^ 29 := by
    rw [extractLsb'_toNat_div, pow_zero, Nat.div_one]
  have hkept : ((exp64 x).toNat - 896) <<< 23 ||| (frac64 x).toNat / 2 ^ 29 = keptNormal x := by
    rw [Nat.shiftLeft_eq, keptNormal]
    exact (add_eq_or_of_dvd_of_lt (Nat.dvd_mul_left _ _) (by have := (frac64 x).isLt; omega)).symm
  rw [narrow_of_normal_exp c (by omega) (by omega), if_neg (by omega), if_pos hlow]
  simp only [narrowNormal, hexp, hfrac, hlowbits, hkept, rounded]

theorem narrow_of_tiny (hlow : 1 ≤ (exp64 x).toNat) (hhigh : (exp64 x).toNat ≤ 896) :
    narrow c x = withSign32 (sign64 x)
      (BitVec.ofNat 31 (rounded c (keptTiny x) (discardedTiny x) (2 ^ (926 - (exp64 x).toNat - 1)))) := by
  have hexp : (-97 - (((exp64 x).toNat : Int) - 1023)).toNat = 926 - (exp64 x).toNat := by omega
  have hsig : 2 ^ 52 ||| (frac64 x).toNat = 2 ^ 52 + (frac64 x).toNat :=
    (add_eq_or_of_dvd_of_lt dvd_rfl (frac64 x).isLt).symm
  rw [narrow_of_normal_exp c hlow (by omega), if_neg (by omega), if_neg (by omega)]
  simp only [narrowSubnormal, hexp, hsig, Nat.shiftRight_eq_div_pow]
  rfl

theorem keptNormal_lt (hhigh : (exp64 x).toNat ≤ 1150) : keptNormal x < 255 * 2 ^ 23 := by
  have := (frac64 x).isLt
  rw [keptNormal]; omega

/-- The significand of a tiny operand loses 30 bits or more. -/
theorem keptTiny_lt (hhigh : (exp64 x).toNat ≤ 896) : keptTiny x < 2 ^ 23 := by
  have hsig : 2 ^ 52 + (frac64 x).toNat < 2 ^ 23 * 2 ^ 30 := by have := (frac64 x).isLt; omega
  refine (Nat.div_lt_iff_lt_mul (Nat.two_pow_pos _)).2 (hsig.trans_le ?_)
  exact Nat.mul_le_mul_left _ (Nat.pow_le_pow_right (by decide) (by omega))

end

/-! ### NARROW of NaNs (spec 41 R114) -/

theorem narrowNan_of_quiet {c : Config} (h : c.nanQuiet = true) (s : BitVec 1) (f : BitVec 52) :
    narrowNan c s f = s.setWidth 32 <<< 31 ||| (0x7FC00000#32 ||| (f.extractLsb' 29 22).setWidth 32) := by
  rw [narrowNan, if_pos h]
  refine withSign32_eq_signBit_or s ?_
  rw [BitVec.toNat_or, BitVec.toNat_or, BitVec.toNat_setWidth_of_le (by decide),
    BitVec.toNat_setWidth_of_le (by decide)]
  rfl

theorem narrowNan_of_not_quiet {c : Config} (h : c.nanQuiet = false) (s : BitVec 1) (f : BitVec 52) :
    narrowNan c s f = s.setWidth 32 <<< 31 |||
      (0x7F800000#32 ||| if (f.extractLsb' 29 23).setWidth 32 = 0#32 then 0x400000#32
        else (f.extractLsb' 29 23).setWidth 32) := by
  have hzero : ((f.extractLsb' 29 23).setWidth 32 = 0#32) = (f.extractLsb' 29 23 = 0#23) := by
    rw [← BitVec.toNat_inj, ← BitVec.toNat_inj, BitVec.toNat_setWidth_of_le (by decide)]; rfl
  simp only [narrowNan, h, Bool.false_eq_true, if_false, hzero]
  refine withSign32_eq_signBit_or s ?_
  split_ifs
  · rfl
  · rw [BitVec.toNat_or, BitVec.toNat_or, BitVec.toNat_setWidth_of_le (by decide),
      BitVec.toNat_setWidth_of_le (by decide)]
    rfl

/-- Settles O31, by NARROW's equation for each of the four cases. -/
theorem narrowOfSpecialOperands : Obligations.NarrowOfSpecialOperands := by
  intro c x s e f p
  refine ⟨fun he hfrac => ?_, fun he => ?_, fun he hfrac hq => ?_, fun he hfrac hq => ?_⟩
  · rw [narrow_of_infinity c he hfrac]
    exact withSign32_eq_signBit_or _ rfl
  · rw [narrow_of_exp_zero c he, withSign32_eq_signBit_or (sign64 x) (m := 0#31) (M := 0#32) rfl, BitVec.or_zero]
    rfl
  · rw [narrow_of_nan c he hfrac, narrowNan_of_quiet hq, ← BitVec.or_assoc]
    rfl
  · rw [narrow_of_nan c he hfrac, narrowNan_of_not_quiet hq, ← BitVec.or_assoc]
    rfl

/-! ### NaNs through the table stage (spec 41 R121) -/

section
variable {b : Single} (hexp : exp32 b = 255#8)
include hexp

/-- At the largest exponent field PACK32 keeps the upper mantissa bits under binary16's largest exponent. -/
theorem pack32_filled_toNat_of_max : (pack32 Tables.filled b).toNat =
    (sign32 b).toNat * 2 ^ 15 + (0x7C00 + (man32 b).toNat / 2 ^ 13) := by
  rw [pack32_filled_toNat, packMagnitude_of_max (congrArg BitVec.toNat hexp)]

theorem exp16_pack32_of_max : exp16 (pack32 Tables.filled b) = 31#5 := by
  refine BitVec.eq_of_toNat_eq ?_
  have := (man32 b).isLt
  rw [exp16_toNat, pack32_filled_toNat_of_max hexp, BitVec.toNat_ofNat]
  omega

theorem man16_pack32_of_max : (man16 (pack32 Tables.filled b)).toNat = (man32 b).toNat / 2 ^ 13 := by
  have := (man32 b).isLt
  rw [man16_toNat, pack32_filled_toNat_of_max hexp]
  omega

/-- A NaN whose payload lies in the bits PACK32 shifts out becomes an infinity (spec 90 C5). -/
theorem pack32_of_max_of_small (h : (man32 b).toNat < 2 ^ 13) :
    pack32 Tables.filled b = (sign32 b).setWidth 16 <<< 15 ||| 0x7C00#16 := by
  refine pack32_filled_eq_signBit_or ?_
  rw [packMagnitude_of_max (congrArg BitVec.toNat hexp), Nat.div_eq_of_lt h]
  rfl

end

/-- The fields of a pattern assembled at the largest exponent field. -/
theorem fields_of_max {b : Single} {s : BitVec 1} {m : Nat} (hb : b.toNat = s.toNat * 2 ^ 31 + (0x7F800000 + m))
    (hm : m < 2 ^ 23) : sign32 b = s ∧ exp32 b = 255#8 ∧ (man32 b).toNat = m := by
  have hs := s.isLt
  refine ⟨BitVec.eq_of_toNat_eq ?_, BitVec.eq_of_toNat_eq ?_, ?_⟩
  · rw [sign32_toNat]; omega
  · rw [exp32_toNat, BitVec.toNat_ofNat]; omega
  · rw [man32_toNat]; omega

/-- NARROW quiets a NaN: bit 22 is set above the 22 payload bits kept. -/
theorem narrow_fields_of_quieted_nan {c : Config} {x : Double} (hq : c.nanQuiet = true)
    (hnan : (class64 x).isNan = true) : sign32 (narrow c x) = sign64 x ∧ exp32 (narrow c x) = 255#8 ∧
      (man32 (narrow c x)).toNat = 2 ^ 22 + (frac64 x).toNat / 2 ^ 29 % 2 ^ 22 := by
  obtain ⟨hexp, hfrac⟩ := class64_isNan_iff.1 hnan
  have hpayload : (((frac64 x).extractLsb' 29 22).setWidth 32 : Single).toNat =
      (frac64 x).toNat / 2 ^ 29 % 2 ^ 22 := by
    rw [BitVec.toNat_setWidth_of_le (by decide), extractLsb'_toNat_div]
  have hor := toNat_or_of_dvd_of_lt (a := 0x7FC00000#32) 22 (by decide) (hpayload.trans_lt (Nat.mod_lt _ (by decide)))
  rw [hpayload, BitVec.toNat_ofNat] at hor
  refine fields_of_max ?_ (by omega)
  rw [narrow_of_nan c (congrArg BitVec.toNat hexp) hfrac, narrowNan_of_quiet hq, signBit32_or_toNat _ (by omega), hor]
  omega

/-- Without the quiet bit NARROW keeps the upper 23 payload bits, where they are not all zero. -/
theorem narrow_fields_of_kept_nan {c : Config} {x : Double} (hq : c.nanQuiet = false)
    (hnan : (class64 x).isNan = true) (hkept : (frac64 x).extractLsb' 29 23 ≠ 0#23) :
    sign32 (narrow c x) = sign64 x ∧ exp32 (narrow c x) = 255#8 ∧
      (man32 (narrow c x)).toNat = ((frac64 x).extractLsb' 29 23).toNat := by
  obtain ⟨hexp, hfrac⟩ := class64_isNan_iff.1 hnan
  have hlt := ((frac64 x).extractLsb' 29 23).isLt
  have hpayload : (((frac64 x).extractLsb' 29 23).setWidth 32 : Single).toNat =
      ((frac64 x).extractLsb' 29 23).toNat := BitVec.toNat_setWidth_of_le (by decide)
  have hne : ((frac64 x).extractLsb' 29 23).setWidth 32 ≠ 0#32 := fun h =>
    hkept (BitVec.eq_of_toNat_eq (by rw [← hpayload, h]; rfl))
  have hor := toNat_or_of_dvd_of_lt (a := 0x7F800000#32) 23 (by decide) (hpayload.trans_lt hlt)
  rw [hpayload, BitVec.toNat_ofNat] at hor
  refine fields_of_max ?_ hlt
  rw [narrow_of_nan c (congrArg BitVec.toNat hexp) hfrac, narrowNan_of_not_quiet hq, if_neg hne,
    signBit32_or_toNat _ (by omega), hor]

/-- Settles O39: the table stage keeps `m32[22:13]`, which the quiet bit makes nonzero. -/
theorem packOfNans : Obligations.PackOfNans := by
  refine ⟨fun b hexp hman => ?_, fun c x hnan => ⟨fun hq => ?_, fun hq htop hkept => ?_⟩⟩
  · have hpos : (man32 b).toNat ≠ 0 := fun h => hman (BitVec.eq_of_toNat_eq h)
    have hlt := (man32 b).isLt
    have htop : (b.extractLsb' 13 10).toNat = (man32 b).toNat / 2 ^ 13 := by
      rw [extractLsb'_toNat_div, man32_toNat]; omega
    have hzero : b.extractLsb' 13 10 = 0#10 ↔ (man32 b).toNat < 2 ^ 13 := by
      rw [← BitVec.toNat_inj, htop, BitVec.toNat_ofNat]; omega
    rw [Ne, hzero]
    refine ⟨by omega, pack32_of_max_of_small hexp, fun hbig => ?_⟩
    refine class16_isNan_iff.2 ⟨exp16_pack32_of_max hexp, fun h => hbig ?_⟩
    have hman16 := man16_pack32_of_max hexp
    rw [h, BitVec.toNat_ofNat] at hman16
    omega
  · obtain ⟨hsign, hexp, hman⟩ := narrow_fields_of_quieted_nan hq hnan
    have hman16 := man16_pack32_of_max hexp
    refine ⟨?_, class16_eq_quietNan (exp16_pack32_of_max hexp) (by rw [packFunction]; omega)⟩
    have hpayload : (((frac64 x).extractLsb' 42 9).setWidth 16 : Half).toNat = (frac64 x).toNat / 2 ^ 42 % 2 ^ 9 := by
      rw [BitVec.toNat_setWidth_of_le (by decide), extractLsb'_toNat_div]
    have hor := toNat_or_of_dvd_of_lt (a := 0x7E00#16) 9 (by decide) (hpayload.trans_lt (Nat.mod_lt _ (by decide)))
    rw [packFunction, BitVec.or_assoc, ← hsign]
    refine pack32_filled_eq_signBit_or ?_
    rw [packMagnitude_of_max (congrArg BitVec.toNat hexp), hman, hor, hpayload, BitVec.toNat_ofNat]
    omega
  · obtain ⟨hsign, hexp, hman⟩ := narrow_fields_of_kept_nan hq hnan hkept
    rw [packFunction, pack32_of_max_of_small hexp, hsign]
    have htop0 := congrArg BitVec.toNat htop
    rw [extractLsb'_toNat_div, BitVec.toNat_ofNat] at htop0
    rw [hman, extractLsb'_toNat_div]
    omega

/-! ### Magnitudes in a common unit (spec 30 R61 to R63)

The bits below the sign, read as a number, order the finite magnitudes of a format; in units of 2^-1074, the smallest
binary64 magnitude, every finite magnitude of the three formats is a natural number. -/

def mag16 (h : Half) : Nat := h.toNat % 2 ^ 15
def mag32 (b : Single) : Nat := b.toNat % 2 ^ 31
def mag64 (x : Double) : Nat := x.toNat % 2 ^ 63

theorem mag16_eq_fields (h : Half) : mag16 h = (exp16 h).toNat * 2 ^ 10 + (man16 h).toNat := by
  rw [mag16, exp16_toNat, man16_toNat]; omega
theorem mag32_eq_fields (b : Single) : mag32 b = (exp32 b).toNat * 2 ^ 23 + (man32 b).toNat := by
  rw [mag32, exp32_toNat, man32_toNat]; omega
theorem mag64_eq_fields (x : Double) : mag64 x = (exp64 x).toNat * 2 ^ 52 + (frac64 x).toNat := by
  rw [mag64, exp64_toNat, frac64_toNat]; omega

/-- The smallest binary16 magnitude, 2^-24, is `2^lsb16` units. -/
@[irreducible] def lsb16 : Nat := 1050
/-- The smallest binary32 magnitude, 2^-149, is `2^lsb32` units. -/
@[irreducible] def lsb32 : Nat := 925

theorem two_pow_mul_two_pow {a b n : Nat} (h : a + b = n) : 2 ^ a * 2 ^ b = 2 ^ n := by rw [← pow_add, h]

theorem lsb16_eq : lsb16 = 1050 := by rw [lsb16]
theorem lsb32_eq : lsb32 = 925 := by rw [lsb32]

/-- The magnitude with the bits `k` below the sign, in a format of `p` fraction bits whose smallest magnitude is `2^s`
units. -/
def units (p s k : Nat) : Nat := (if k < 2 ^ p then k else (2 ^ p + k % 2 ^ p) * 2 ^ (k / 2 ^ p - 1)) * 2 ^ s

theorem units_of_lt {p k : Nat} (s : Nat) (h : k < 2 ^ p) : units p s k = k * 2 ^ s := by rw [units, if_pos h]

@[simp] theorem units_zero (p s : Nat) : units p s 0 = 0 := by rw [units_of_lt s (Nat.two_pow_pos p), Nat.zero_mul]

theorem units_of_normal {p e m : Nat} (s : Nat) (he : 1 ≤ e) (hm : m < 2 ^ p) :
    units p s (e * 2 ^ p + m) = (2 ^ p + m) * 2 ^ (e - 1 + s) := by
  have hpos : 0 < 2 ^ p := Nat.two_pow_pos p
  have hge : ¬ e * 2 ^ p + m < 2 ^ p := by
    have := Nat.le_mul_of_pos_left (2 ^ p) he
    omega
  have hdiv : (e * 2 ^ p + m) / 2 ^ p = e := by
    rw [Nat.add_comm, Nat.add_mul_div_right _ _ hpos, Nat.div_eq_of_lt hm, Nat.zero_add]
  have hmod : (e * 2 ^ p + m) % 2 ^ p = m := by
    rw [Nat.add_comm, Nat.add_mul_mod_self_right, Nat.mod_eq_of_lt hm]
  rw [units, if_neg hge, hdiv, hmod, Nat.mul_assoc, ← pow_add]

/-- The next magnitude is one unit in the last place above. -/
theorem units_succ (p s k : Nat) : units p s (k + 1) = units p s k + 2 ^ (k / 2 ^ p - 1 + s) := by
  have hpos : 0 < 2 ^ p := Nat.two_pow_pos p
  have hm : k % 2 ^ p < 2 ^ p := Nat.mod_lt k hpos
  have hk : k / 2 ^ p * 2 ^ p + k % 2 ^ p = k := Nat.div_add_mod' k _
  generalize k / 2 ^ p = e at hk ⊢
  generalize k % 2 ^ p = m at hk hm
  subst hk
  have hnext : m + 1 < 2 ^ p ∨ m + 1 = 2 ^ p := Nat.lt_or_eq_of_le hm
  rcases Nat.eq_zero_or_pos e with rfl | he
  · rw [Nat.zero_mul, Nat.zero_add, units_of_lt s hm, Nat.zero_sub, Nat.zero_add, ← Nat.succ_mul]
    rcases hnext with hlt | heq
    · exact units_of_lt s hlt
    · have htop := units_of_normal (e := 1) s le_rfl hpos
      rwa [Nat.one_mul, Nat.add_zero, ← heq, Nat.sub_self, Nat.zero_add] at htop
  · rw [Nat.add_assoc, units_of_normal s he hm]
    rcases hnext with hlt | heq
    · rw [units_of_normal s he hlt]
      ring
    · have htop := units_of_normal (e := e + 1) s (Nat.le_add_left 1 e) hpos
      rw [Nat.add_zero, Nat.add_zero, Nat.add_sub_cancel, Nat.succ_mul] at htop
      rw [heq, htop, show e + s = e - 1 + s + 1 by omega, ← heq]
      ring

theorem units_strictMono (p s : Nat) : StrictMono (units p s) :=
  strictMono_nat_of_lt_succ fun k => by rw [units_succ]; exact Nat.lt_add_of_pos_right (Nat.two_pow_pos _)

@[simp] theorem units_le_units {p s k k' : Nat} : units p s k ≤ units p s k' ↔ k ≤ k' :=
  (units_strictMono p s).le_iff_le

@[simp] theorem units_lt_units {p s k k' : Nat} : units p s k < units p s k' ↔ k < k' :=
  (units_strictMono p s).lt_iff_lt

/-- A number of `p + 1` significant bits at or above the smallest magnitude is a magnitude of the format. -/
theorem exists_units_eq {p a : Nat} (s : Nat) (ha : a < 2 ^ (p + 1)) (q : Nat) :
    ∃ k, units p s k = a * 2 ^ (q + s) := by
  induction q generalizing a with
  | zero =>
    rcases Nat.lt_or_ge a (2 ^ p) with hlt | hge
    · exact ⟨a, by rw [units_of_lt s hlt, Nat.zero_add]⟩
    · refine ⟨1 * 2 ^ p + (a - 2 ^ p), ?_⟩
      rw [units_of_normal s le_rfl (by rw [pow_succ] at ha; omega), Nat.add_sub_cancel' hge]
  | succ q ih =>
    rcases Nat.lt_or_ge a (2 ^ p) with hlt | hge
    · obtain ⟨k, hk⟩ := ih (a := a * 2) (by rw [pow_succ]; omega)
      exact ⟨k, by rw [hk, Nat.mul_assoc, ← pow_succ', Nat.add_right_comm]⟩
    · refine ⟨(q + 2) * 2 ^ p + (a - 2 ^ p), ?_⟩
      rw [units_of_normal s (by omega) (by rw [pow_succ] at ha; omega), Nat.add_sub_cancel' hge]
      rfl

/-- One format's magnitudes are magnitudes of another that has as many fraction bits and as small a unit. -/
theorem exists_units_eq_units {p p' s s' : Nat} (hp : p ≤ p') (hs : s' ≤ s) (k : Nat) :
    ∃ k', units p' s' k' = units p s k := by
  have hpow : 2 ^ p ≤ 2 ^ p' := Nat.pow_le_pow_right (by decide) hp
  have hm : k % 2 ^ p < 2 ^ p := Nat.mod_lt k (Nat.two_pow_pos p)
  rcases Nat.lt_or_ge k (2 ^ p) with hlt | hge
  · obtain ⟨k', hk'⟩ := exists_units_eq s' (show k < 2 ^ (p' + 1) by rw [pow_succ]; omega) (s - s')
    exact ⟨k', by rw [hk', units_of_lt s hlt, Nat.sub_add_cancel hs]⟩
  · obtain ⟨k', hk'⟩ := exists_units_eq s' (show 2 ^ p + k % 2 ^ p < 2 ^ (p' + 1) by rw [pow_succ]; omega)
      (k / 2 ^ p - 1 + (s - s'))
    refine ⟨k', ?_⟩
    rw [hk', units, if_neg (Nat.not_lt.2 hge), Nat.mul_assoc, ← pow_add, Nat.add_assoc, Nat.sub_add_cancel hs]

/-! ### The values of spec 30 in units -/

/-- One unit, 2^-1074. -/
@[irreducible] def unit : ℚ := 2 ^ (-1074 : ℤ)

theorem unit_pos : 0 < unit := by rw [unit]; exact zpow_pos two_pos _

theorem two_zpow_eq_unit {n : Nat} {z : ℤ} (hz : z = (n : ℤ) - 1074) : (2 : ℚ) ^ z = 2 ^ n * unit := by
  rw [unit, hz, sub_eq_add_neg, zpow_add₀ two_ne_zero, zpow_natCast]

/-- A format's subnormal magnitude, whose last place is `2^s` units. -/
theorem subnormal_eq_units {p m : Nat} (s : Nat) (hm : m < 2 ^ p) {z : ℤ} (hz : z = (s : ℤ) - 1074) :
    (m : ℚ) * 2 ^ z = (units p s m : ℚ) * unit := by
  rw [units_of_lt s hm, two_zpow_eq_unit hz]
  push_cast
  ring

/-- A format's normal magnitude. -/
theorem normal_eq_units {p e m : Nat} (s : Nat) (he : 1 ≤ e) (hm : m < 2 ^ p) {z : ℤ}
    (hz : z = (e : ℤ) - 1 + s + p - 1074) :
    (1 + (m : ℚ) / 2 ^ p) * 2 ^ z = (units p s (e * 2 ^ p + m) : ℚ) * unit := by
  have hz' : z = ((e - 1 + s + p : Nat) : ℤ) - 1074 := by omega
  rw [units_of_normal s he hm, two_zpow_eq_unit hz', pow_add]
  push_cast
  field_simp

theorem finiteMag16_eq_units (h : Half) : finiteMag16 h = (units 10 lsb16 (mag16 h) : ℚ) * unit := by
  rw [mag16_eq_fields]
  by_cases he : exp16 h = 0#5
  · have he' : (exp16 h).toNat = 0 := congrArg BitVec.toNat he
    rw [finiteMag16, if_pos he, he', Nat.zero_mul, Nat.zero_add]
    exact subnormal_eq_units lsb16 (man16 h).isLt (by rw [lsb16_eq]; norm_num)
  · have hpos : 1 ≤ (exp16 h).toNat := Nat.pos_of_ne_zero fun h0 => he (BitVec.eq_of_toNat_eq h0)
    rw [finiteMag16, if_neg he, show (1024 : ℚ) = 2 ^ 10 by norm_num]
    exact normal_eq_units lsb16 hpos (man16 h).isLt (by rw [lsb16_eq]; push_cast; ring)

theorem finiteMag32_eq_units (b : Single) : finiteMag32 b = (units 23 lsb32 (mag32 b) : ℚ) * unit := by
  rw [mag32_eq_fields]
  by_cases he : exp32 b = 0#8
  · have he' : (exp32 b).toNat = 0 := congrArg BitVec.toNat he
    rw [finiteMag32, if_pos he, he', Nat.zero_mul, Nat.zero_add]
    exact subnormal_eq_units lsb32 (man32 b).isLt (by rw [lsb32_eq]; norm_num)
  · have hpos : 1 ≤ (exp32 b).toNat := Nat.pos_of_ne_zero fun h0 => he (BitVec.eq_of_toNat_eq h0)
    rw [finiteMag32, if_neg he]
    exact normal_eq_units lsb32 hpos (man32 b).isLt (by rw [lsb32_eq]; push_cast; ring)

theorem finiteMag64_eq_units (x : Double) : finiteMag64 x = (units 52 0 (mag64 x) : ℚ) * unit := by
  rw [mag64_eq_fields]
  by_cases he : exp64 x = 0#11
  · have he' : (exp64 x).toNat = 0 := congrArg BitVec.toNat he
    rw [finiteMag64, if_pos he, he', Nat.zero_mul, Nat.zero_add]
    exact subnormal_eq_units 0 (frac64 x).isLt (by norm_num)
  · have hpos : 1 ≤ (exp64 x).toNat := Nat.pos_of_ne_zero fun h0 => he (BitVec.eq_of_toNat_eq h0)
    rw [finiteMag64, if_neg he]
    exact normal_eq_units 0 hpos (frac64 x).isLt (by push_cast; ring)

theorem unit_mul_le_iff {a b : Nat} : (a : ℚ) * unit ≤ (b : ℚ) * unit ↔ a ≤ b := by
  rw [mul_le_mul_iff_left₀ unit_pos, Nat.cast_le]

theorem unit_mul_lt_iff {a b : Nat} : (a : ℚ) * unit < (b : ℚ) * unit ↔ a < b := by
  rw [mul_lt_mul_iff_left₀ unit_pos, Nat.cast_lt]

/-! ### Patterns by sign and magnitude -/

theorem half_toNat_eq (h : Half) : h.toNat = (sign16 h).toNat * 2 ^ 15 + mag16 h := by
  rw [sign16_toNat, mag16]; omega

theorem eq_signBit16_or {h m : Half} (hm : mag16 h = m.toNat) : h = (sign16 h).setWidth 16 <<< 15 ||| m := by
  have hlt : m.toNat < 2 ^ 15 := hm ▸ Nat.mod_lt _ (by decide)
  exact BitVec.eq_of_toNat_eq (by rw [signBit16_or_toNat _ hlt, half_toNat_eq, hm])

theorem exp16_ne_max_iff {h : Half} : exp16 h ≠ 31#5 ↔ mag16 h < 0x7C00 := by
  have := (exp16 h).isLt
  have := (man16 h).isLt
  rw [Ne, ← BitVec.toNat_inj, mag16_eq_fields, BitVec.toNat_ofNat]
  omega

theorem exp32_ne_max_iff {b : Single} : exp32 b ≠ 255#8 ↔ mag32 b < 0x7F800000 := by
  have := (exp32 b).isLt
  have := (man32 b).isLt
  rw [Ne, ← BitVec.toNat_inj, mag32_eq_fields, BitVec.toNat_ofNat]
  omega

theorem exp64_ne_max_iff {x : Double} : exp64 x ≠ 2047#11 ↔ mag64 x < 0x7FF0000000000000 := by
  have := (exp64 x).isLt
  have := (frac64 x).isLt
  rw [Ne, ← BitVec.toNat_inj, mag64_eq_fields, BitVec.toNat_ofNat]
  omega

@[simp] theorem mag32_withSign32 (s : BitVec 1) (m : BitVec 31) : mag32 (withSign32 s m) = m.toNat := by
  rw [mag32, withSign32_toNat]; have := m.isLt; omega

@[simp] theorem sign16_pack32 (b : Single) : sign16 (pack32 Tables.filled b) = sign32 b := by
  refine BitVec.eq_of_toNat_eq ?_
  have := packMagnitude_lt b
  rw [sign16_toNat, pack32_filled_toNat]
  omega

@[simp] theorem mag16_pack32 (b : Single) : mag16 (pack32 Tables.filled b) = packMagnitude b := by
  have := packMagnitude_lt b
  rw [mag16, pack32_filled_toNat]
  omega

/-! ### The largest magnitude not above a number -/

/-- `k` is the largest magnitude of the format that is not above `V` units. -/
def IsFloor (p s V k : Nat) : Prop := units p s k ≤ V ∧ V < units p s (k + 1)

theorem IsFloor.units_le_iff {p s V k g : Nat} (h : IsFloor p s V k) : units p s g ≤ V ↔ g ≤ k := by
  constructor
  · intro hg
    exact Nat.le_of_lt_succ (units_lt_units.1 (hg.trans_lt h.2))
  · intro hg
    exact (units_le_units.2 hg).trans h.1

theorem IsFloor.mono {p s V V' k k' : Nat} (h : IsFloor p s V k) (h' : IsFloor p s V' k') (hV : V ≤ V') : k ≤ k' :=
  h'.units_le_iff.1 (h.1.trans hV)

/-- A magnitude whose significand is `a / D`, in steps of `D` times the weight `w`, is the largest not above `a * w`. -/
theorem isFloor_of_div {p s k a D w : Nat} (hD : 0 < D) (hw : 0 < w) (hk : units p s k = a / D * (D * w))
    (hsucc : units p s (k + 1) = units p s k + D * w) : IsFloor p s (a * w) k := by
  rw [IsFloor, hsucc, hk, ← Nat.succ_mul, ← Nat.mul_assoc, ← Nat.mul_assoc]
  refine ⟨Nat.mul_le_mul_right w (Nat.div_mul_le_self a D), Nat.mul_lt_mul_of_pos_right ?_ hw⟩
  rw [Nat.succ_mul]
  exact Nat.lt_div_mul_add hD

/-! ### The truncation law of the table stage (spec 41 R119) -/

/-- `k` is the truncation of `V` units to a binary16 magnitude; from 65536 on that is infinity. -/
def TruncatesTo16 (V k : Nat) : Prop :=
  (units 10 lsb16 0x7C00 ≤ V ∧ k = 0x7C00) ∨ (k < 0x7C00 ∧ IsFloor 10 lsb16 V k)

theorem TruncatesTo16.le {V k : Nat} (h : TruncatesTo16 V k) : k ≤ 0x7C00 := by
  rcases h with ⟨-, hk⟩ | ⟨hk, -⟩ <;> omega

theorem TruncatesTo16.mono {V V' k k' : Nat} (h : TruncatesTo16 V k) (h' : TruncatesTo16 V' k') (hV : V ≤ V') :
    k ≤ k' := by
  rcases h' with ⟨-, rfl⟩ | ⟨hk', hfloor'⟩
  · exact h.le
  · rcases h with ⟨hover, rfl⟩ | ⟨-, hfloor⟩
    · exact hfloor'.units_le_iff.1 (hover.trans hV)
    · exact hfloor.mono hfloor' hV

/-- Binary16's infinity stands where binary32 has 65536. -/
theorem units_inf16_eq : units 10 lsb16 0x7C00 = units 23 lsb32 0x47800000 := by
  have hpow : 2 ^ 10 * 2 ^ (31 - 1 + lsb16) = 2 ^ 23 * 2 ^ (143 - 1 + lsb32) := by
    rw [← pow_add, ← pow_add, lsb16_eq, lsb32_eq]
  rw [show 0x7C00 = 31 * 2 ^ 10 + 0 from rfl, show 0x47800000 = 143 * 2 ^ 23 + 0 from rfl,
    units_of_normal lsb16 (by decide) (by decide), units_of_normal lsb32 (by decide) (by decide), Nat.add_zero,
    Nat.add_zero, hpow]

/-- 65536 is the number after binary16's largest, 65504. -/
theorem inf16_eq_units : (65536 : ℚ) = (units 10 lsb16 0x7C00 : ℚ) * unit := by
  have h := normal_eq_units (p := 10) (e := 31) (m := 0) lsb16 (by decide) (by decide) (z := 16)
    (by rw [lsb16_eq]; norm_num)
  norm_num at h
  exact h

theorem largest16_eq_units : (65504 : ℚ) = (units 10 lsb16 0x7BFF : ℚ) * unit := by
  have h := normal_eq_units (p := 10) (e := 30) (m := 1023) lsb16 (by decide) (by decide) (z := 15)
    (by rw [lsb16_eq]; norm_num)
  norm_num at h
  exact h

theorem TruncatesTo16.isTruncation {V : Nat} {h : Half} (hk : TruncatesTo16 V (mag16 h)) :
    IsTruncation (sign16 h) ((V : ℚ) * unit) h := by
  rw [IsTruncation, inf16_eq_units, unit_mul_le_iff, unit_mul_lt_iff]
  rcases hk with ⟨hover, hinf⟩ | ⟨hfin, hfloor⟩
  · exact ⟨fun _ => eq_signBit16_or hinf, fun hlt => absurd hover (Nat.not_le.2 hlt)⟩
  · refine ⟨fun hover => absurd (hfloor.units_le_iff.1 hover) (Nat.not_le.2 hfin), fun _ =>
      ⟨rfl, exp16_ne_max_iff.2 hfin, ?_, fun g _ hg => ?_⟩⟩
    · rw [finiteMag16_eq_units, unit_mul_le_iff]
      exact hfloor.1
    · rw [finiteMag16_eq_units, unit_mul_le_iff] at hg
      rw [finiteMag16_eq_units, finiteMag16_eq_units, unit_mul_le_iff, units_le_units]
      exact hfloor.units_le_iff.1 hg

section
variable {b : Single}

/-- The units of a binary32 normal, as significand times weight. -/
theorem units_mag32_of_normal (he : 1 ≤ (exp32 b).toNat) :
    units 23 lsb32 (mag32 b) = (2 ^ 23 + (man32 b).toNat) * 2 ^ ((exp32 b).toNat - 1 + lsb32) := by
  rw [mag32_eq_fields, units_of_normal lsb32 he (man32 b).isLt]

theorem isFloor_packMagnitude_of_underflow (h : (exp32 b).toNat ≤ 102) :
    IsFloor 10 lsb16 (units 23 lsb32 (mag32 b)) (packMagnitude b) := by
  rw [packMagnitude_of_underflow h, IsFloor, units_zero]
  refine ⟨Nat.zero_le _, ?_⟩
  have hpow : 2 ^ lsb16 = 2 ^ 23 * 2 ^ (103 - 1 + lsb32) := by
    rw [← pow_add, lsb16_eq, lsb32_eq]
  have hsmallest : units 10 lsb16 (0 + 1) = units 23 lsb32 (103 * 2 ^ 23 + 0) := by
    rw [units_of_lt lsb16 (by decide), units_of_normal lsb32 (by decide) (by decide), hpow, zero_add, one_mul,
      Nat.add_zero]
  have := (man32 b).isLt
  rw [hsmallest, units_lt_units, mag32_eq_fields]
  omega

theorem packMagnitude_lt_of_denormal (hlow : 103 ≤ (exp32 b).toNat) (hhigh : (exp32 b).toNat ≤ 112) :
    packMagnitude b < 2 ^ 10 := by
  have hsig : 2 ^ 23 + (man32 b).toNat < 2 ^ 24 := by have := (man32 b).isLt; omega
  rw [packMagnitude_of_denormal hlow hhigh, Nat.div_lt_iff_lt_mul (Nat.two_pow_pos _), ← pow_add]
  exact hsig.trans_le (Nat.pow_le_pow_right (by decide) (by omega))

theorem isFloor_packMagnitude_of_denormal (hlow : 103 ≤ (exp32 b).toNat) (hhigh : (exp32 b).toNat ≤ 112) :
    IsFloor 10 lsb16 (units 23 lsb32 (mag32 b)) (packMagnitude b) := by
  have hlt := packMagnitude_lt_of_denormal hlow hhigh
  have hpow : 2 ^ (126 - (exp32 b).toNat) * 2 ^ ((exp32 b).toNat - 1 + lsb32) = 2 ^ lsb16 :=
    two_pow_mul_two_pow (by rw [lsb16_eq, lsb32_eq]; omega)
  rw [units_mag32_of_normal (by omega)]
  refine isFloor_of_div (Nat.two_pow_pos (126 - (exp32 b).toNat)) (Nat.two_pow_pos _) ?_ ?_ <;> rw [hpow]
  · rw [units_of_lt lsb16 hlt, packMagnitude_of_denormal hlow hhigh]
  · rw [units_succ, Nat.div_eq_of_lt hlt, Nat.zero_sub, Nat.zero_add]

theorem isFloor_packMagnitude_of_normal (hlow : 113 ≤ (exp32 b).toNat) (hhigh : (exp32 b).toNat ≤ 142) :
    IsFloor 10 lsb16 (units 23 lsb32 (mag32 b)) (packMagnitude b) := by
  have hman : (man32 b).toNat / 2 ^ 13 < 2 ^ 10 := by have := (man32 b).isLt; omega
  have hpow : 2 ^ 13 * 2 ^ ((exp32 b).toNat - 1 + lsb32) = 2 ^ ((exp32 b).toNat - 112 - 1 + lsb16) :=
    two_pow_mul_two_pow (by rw [lsb16_eq, lsb32_eq]; omega)
  rw [units_mag32_of_normal (by omega)]
  refine isFloor_of_div (Nat.two_pow_pos 13) (Nat.two_pow_pos _) ?_ ?_ <;>
    rw [hpow, packMagnitude_of_normal hlow hhigh]
  · rw [units_of_normal lsb16 (by omega) hman]
    congr 1
    omega
  · rw [units_succ, show (((exp32 b).toNat - 112) * 2 ^ 10 + (man32 b).toNat / 2 ^ 13) / 2 ^ 10 =
      (exp32 b).toNat - 112 by omega]

/-- From 65536 on, infinity included, the table stage gives infinity. -/
theorem packMagnitude_of_huge (hlow : 0x47800000 ≤ mag32 b) (hhigh : mag32 b ≤ 0x7F800000) :
    packMagnitude b = 0x7C00 := by
  have hmag := mag32_eq_fields b
  have hman := (man32 b).isLt
  rcases (by omega : (143 ≤ (exp32 b).toNat ∧ (exp32 b).toNat ≤ 254) ∨ (exp32 b).toNat = 255) with
    ⟨hexp, hexp'⟩ | hmax
  · exact packMagnitude_of_overflow hexp hexp'
  · rw [packMagnitude_of_max hmax]
    omega

/-- The table stage truncates every pattern that is no NaN; an infinity's magnitude counts as the one above all finite
ones. -/
theorem truncatesTo16_packMagnitude (h : mag32 b ≤ 0x7F800000) :
    TruncatesTo16 (units 23 lsb32 (mag32 b)) (packMagnitude b) := by
  have hmag := mag32_eq_fields b
  have hman := (man32 b).isLt
  rcases (by omega : (exp32 b).toNat ≤ 102 ∨ (103 ≤ (exp32 b).toNat ∧ (exp32 b).toNat ≤ 112) ∨
      (113 ≤ (exp32 b).toNat ∧ (exp32 b).toNat ≤ 142) ∨ 0x47800000 ≤ mag32 b) with
    hunder | ⟨hlow, hhigh⟩ | ⟨hlow, hhigh⟩ | hhuge
  · exact .inr ⟨by rw [packMagnitude_of_underflow hunder]; decide, isFloor_packMagnitude_of_underflow hunder⟩
  · refine .inr ⟨?_, isFloor_packMagnitude_of_denormal hlow hhigh⟩
    have := packMagnitude_lt_of_denormal hlow hhigh
    omega
  · refine .inr ⟨?_, isFloor_packMagnitude_of_normal hlow hhigh⟩
    rw [packMagnitude_of_normal hlow hhigh]
    omega
  · exact .inl ⟨units_inf16_eq ▸ units_le_units.2 hhuge, packMagnitude_of_huge hhuge h⟩

end

/-- Settles O27: the table stage's magnitude is the truncation in each range of the exponent field. -/
theorem packStageTruncates : Obligations.PackStageTruncates := by
  intro b hnan
  refine ⟨fun hinf => ?_, fun hfin => ?_⟩
  · obtain ⟨hexp, hman⟩ := class32_eq_infinity_iff.1 hinf
    exact pack32_of_max_of_small hexp (by rw [hman]; decide)
  · have hexp : exp32 b ≠ 255#8 := by
      intro hexp
      by_cases hman : man32 b = 0#23
      · exact hfin (class32_eq_infinity_iff.2 ⟨hexp, hman⟩)
      · exact absurd (class32_isNan_iff.2 ⟨hexp, hman⟩) (by simp [hnan])
    have htrunc := truncatesTo16_packMagnitude (exp32_ne_max_iff.1 hexp).le
    rw [finiteMag32_eq_units, largest16_eq_units, inf16_eq_units, unit_mul_le_iff, unit_mul_lt_iff]
    constructor
    · rw [← mag16_pack32] at htrunc
      simpa using htrunc.isTruncation
    · intro hlow hhigh
      rcases htrunc with ⟨hover, -⟩ | ⟨hlt, hfloor⟩
      · exact absurd hover (Nat.not_le.2 hhigh)
      · have hge := hfloor.units_le_iff.1 hlow
        exact pack32_filled_eq_signBit_or (by rw [BitVec.toNat_ofNat]; omega)

/-! ### NARROW's bits on normal operands (spec 41 R113, R115) -/

theorem withSign32_ofNat (s : BitVec 1) {n : Nat} (h : n < 2 ^ 31) :
    withSign32 s (BitVec.ofNat 31 n) = s.setWidth 32 <<< 31 ||| BitVec.ofNat 32 n := by
  refine withSign32_eq_signBit_or s ?_
  rw [BitVec.toNat_ofNat, BitVec.toNat_ofNat]
  omega

/-- NARROW keeps the sign of every operand, a NaN's too. -/
@[simp] theorem sign32_narrow (c : Config) (x : Double) : sign32 (narrow c x) = sign64 x := by
  have hexp := (exp64 x).isLt
  rcases (by omega : (exp64 x).toNat = 0 ∨ (1 ≤ (exp64 x).toNat ∧ (exp64 x).toNat ≤ 2046) ∨ (exp64 x).toNat = 2047)
    with hzero | ⟨hlow, hhigh⟩ | hmax
  · rw [narrow_of_exp_zero c hzero, sign32_withSign32]
  · rw [narrow_of_normal_exp c hlow hhigh]
    split_ifs
    · rw [narrowOverflow]; split <;> exact sign32_withSign32 _ _
    · exact sign32_withSign32 _ _
    · exact sign32_withSign32 _ _
  · by_cases hfrac : frac64 x = 0#52
    · rw [narrow_of_infinity c hmax hfrac, sign32_withSign32]
    · rw [narrow_of_nan c hmax hfrac, narrowNan]
      split_ifs
      · exact sign32_withSign32 _ _
      · exact sign32_withSign32 _ _

/-! ### NARROW as rounding of a magnitude (spec 41 R112, R113, R115) -/

/-- `n` is the binary32 magnitude NARROW gives for `U` units: the truncation, one place more where RNE rounds up; and
above all finite magnitudes infinity or, under RTZ, the largest finite one. -/
def NarrowsTo (c : Config) (U n : Nat) : Prop :=
  (units 23 lsb32 0x7F800000 ≤ U ∧ n = if c.narrowRnd = .rne then 0x7F800000 else 0x7F7FFFFF) ∨
    ∃ t < 0x7F800000, IsFloor 23 lsb32 U t ∧
      n = if c.narrowRnd = .rne ∧ (units 23 lsb32 t + units 23 lsb32 (t + 1) < 2 * U ∨
        (2 * U = units 23 lsb32 t + units 23 lsb32 (t + 1) ∧ t % 2 = 1)) then t + 1 else t

/-- Comparing the discarded bits with half their range compares the operand with the middle of two neighbours. -/
theorem narrowsTo_rounded (c : Config) {a half w t : Nat} (hhalf : 0 < half) (hw : 0 < w) (ht : t < 0x7F800000)
    (hkept : units 23 lsb32 t = a / (2 * half) * (2 * half * w))
    (hulp : units 23 lsb32 (t + 1) = units 23 lsb32 t + 2 * half * w) :
    NarrowsTo c (a * w) (rounded c t (a % (2 * half)) half) := by
  have hsplit : a * w = units 23 lsb32 t + a % (2 * half) * w := by
    rw [hkept, ← Nat.mul_assoc, ← Nat.add_mul, Nat.div_add_mod']
  have hmiddle : units 23 lsb32 t + units 23 lsb32 (t + 1) = 2 * (units 23 lsb32 t + half * w) := by
    rw [hulp]; ring
  have habove : (units 23 lsb32 t + units 23 lsb32 (t + 1) < 2 * (a * w)) = (half < a % (2 * half)) := by
    rw [hmiddle, hsplit, Nat.mul_lt_mul_left two_pos, Nat.add_lt_add_iff_left, Nat.mul_lt_mul_right hw]
  have hat : (2 * (a * w) = units 23 lsb32 t + units 23 lsb32 (t + 1)) = (a % (2 * half) = half) := by
    rw [hmiddle, hsplit, Nat.mul_right_inj two_ne_zero, Nat.add_right_inj, Nat.mul_left_inj hw.ne']
  refine .inr ⟨t, ht, isFloor_of_div (by omega) hw hkept hulp, ?_⟩
  simp only [habove, hat, rounded_eq_ite]

section
variable (c : Config) {x : Double}

theorem units_mag64_of_normal (he : 1 ≤ (exp64 x).toNat) :
    units 52 0 (mag64 x) = (2 ^ 52 + (frac64 x).toNat) * 2 ^ ((exp64 x).toNat - 1) := by
  rw [mag64_eq_fields, units_of_normal 0 he (frac64 x).isLt, Nat.add_zero]

theorem narrowsTo_of_normal (hlow : 897 ≤ (exp64 x).toNat) (hhigh : (exp64 x).toNat ≤ 1150) :
    NarrowsTo c (units 52 0 (mag64 x)) (mag32 (narrow c x)) := by
  have hfrac := (frac64 x).isLt
  have hpow : 2 * 2 ^ 28 * 2 ^ ((exp64 x).toNat - 1) = 2 ^ ((exp64 x).toNat - 896 - 1 + lsb32) := by
    rw [show 2 * 2 ^ 28 = 2 ^ 29 from rfl]
    exact two_pow_mul_two_pow (by rw [lsb32_eq]; omega)
  have hkept := keptNormal_lt hhigh
  have hnarrow : mag32 (narrow c x) =
      rounded c (keptNormal x) ((2 ^ 52 + (frac64 x).toNat) % (2 * 2 ^ 28)) (2 ^ 28) := by
    have hle := rounded_le c (keptNormal x) ((frac64 x).toNat % 2 ^ 29) (2 ^ 28)
    rw [narrow_of_normal c hlow hhigh, mag32_withSign32, BitVec.toNat_ofNat, Nat.mod_eq_of_lt (by omega)]
    congr 1
    omega
  rw [hnarrow, units_mag64_of_normal (by omega)]
  refine narrowsTo_rounded c (by decide) (Nat.two_pow_pos _) (by omega) ?_ ?_ <;> rw [hpow]
  · rw [keptNormal, units_of_normal lsb32 (by omega) (by omega)]
    congr 1
    omega
  · rw [units_succ, show keptNormal x / 2 ^ 23 = (exp64 x).toNat - 896 by rw [keptNormal]; omega]

theorem narrowsTo_of_tiny (hlow : 1 ≤ (exp64 x).toNat) (hhigh : (exp64 x).toNat ≤ 896) :
    NarrowsTo c (units 52 0 (mag64 x)) (mag32 (narrow c x)) := by
  have hdouble : 2 * 2 ^ (926 - (exp64 x).toNat - 1) = 2 ^ (926 - (exp64 x).toNat) :=
    mul_pow_sub_one (by omega) 2
  have hpow : 2 ^ (926 - (exp64 x).toNat) * 2 ^ ((exp64 x).toNat - 1) = 2 ^ lsb32 :=
    two_pow_mul_two_pow (by rw [lsb32_eq]; omega)
  have hkept := keptTiny_lt hhigh
  have hnarrow : mag32 (narrow c x) =
      rounded c (keptTiny x) (discardedTiny x) (2 ^ (926 - (exp64 x).toNat - 1)) := by
    have hle := rounded_le c (keptTiny x) (discardedTiny x) (2 ^ (926 - (exp64 x).toNat - 1))
    rw [narrow_of_tiny c hlow hhigh, mag32_withSign32, BitVec.toNat_ofNat, Nat.mod_eq_of_lt (by omega)]
  rw [hnarrow, units_mag64_of_normal hlow, discardedTiny, ← hdouble]
  refine narrowsTo_rounded c (Nat.two_pow_pos _) (Nat.two_pow_pos _) (by omega) ?_ ?_ <;> rw [hdouble, hpow]
  · rw [units_of_lt lsb32 hkept, keptTiny]
  · rw [units_succ, Nat.div_eq_of_lt hkept, Nat.zero_sub, Nat.zero_add]

/-- A zero or binary64 subnormal is far below half the smallest binary32 magnitude. -/
theorem narrowsTo_of_exp_zero (hexp : (exp64 x).toNat = 0) :
    NarrowsTo c (units 52 0 (mag64 x)) (mag32 (narrow c x)) := by
  have hfrac := (frac64 x).isLt
  have hhalf : 2 ^ 52 < 2 ^ (lsb32 - 1) := Nat.pow_lt_pow_right (by decide) (by rw [lsb32_eq]; decide)
  have hdouble : 2 * 2 ^ (lsb32 - 1) = 2 ^ lsb32 :=
    mul_pow_sub_one (by rw [lsb32_eq]; decide) 2
  have hlt : (frac64 x).toNat < 2 * 2 ^ (lsb32 - 1) := by omega
  have hunits : units 52 0 (mag64 x) = (frac64 x).toNat * 1 := by
    rw [mag64_eq_fields, hexp, Nat.zero_mul, Nat.zero_add, units_of_lt 0 hfrac, pow_zero]
  have hnarrow : mag32 (narrow c x) =
      rounded c 0 ((frac64 x).toNat % (2 * 2 ^ (lsb32 - 1))) (2 ^ (lsb32 - 1)) := by
    rw [narrow_of_exp_zero c hexp, mag32_withSign32, Nat.mod_eq_of_lt hlt, rounded_eq_ite, if_neg (by omega)]
    rfl
  rw [hnarrow, hunits]
  refine narrowsTo_rounded c (Nat.two_pow_pos _) one_pos (by decide) ?_ ?_
  · rw [Nat.div_eq_of_lt hlt, units_zero, Nat.zero_mul]
  · rw [units_succ, hdouble, Nat.zero_div, Nat.zero_sub, Nat.zero_add, Nat.mul_one]

theorem units_inf32_le (hlow : 1151 ≤ (exp64 x).toNat) : units 23 lsb32 0x7F800000 ≤ units 52 0 (mag64 x) := by
  have hpow : 2 ^ 23 * 2 ^ (255 - 1 + lsb32) = 2 ^ 52 * 2 ^ (1151 - 1 + 0) := by
    rw [← pow_add, ← pow_add, lsb32_eq]
  have hinf : units 23 lsb32 (255 * 2 ^ 23 + 0) = units 52 0 (1151 * 2 ^ 52 + 0) := by
    rw [units_of_normal lsb32 (by decide) (by decide), units_of_normal 0 (by decide) (by decide), Nat.add_zero (2 ^ 23),
      Nat.add_zero (2 ^ 52), hpow]
  rw [show 0x7F800000 = 255 * 2 ^ 23 + 0 from rfl, hinf, units_le_units, mag64_eq_fields]
  omega

/-- NARROW rounds the magnitude of every finite operand. -/
theorem narrowsTo_mag32_narrow (hfin : exp64 x ≠ 2047#11) :
    NarrowsTo c (units 52 0 (mag64 x)) (mag32 (narrow c x)) := by
  have hmax : (exp64 x).toNat ≠ 2047 := fun h => hfin (BitVec.eq_of_toNat_eq h)
  have hlt := (exp64 x).isLt
  rcases (by omega : (exp64 x).toNat = 0 ∨ (1 ≤ (exp64 x).toNat ∧ (exp64 x).toNat ≤ 896) ∨
      (897 ≤ (exp64 x).toNat ∧ (exp64 x).toNat ≤ 1150) ∨ (1151 ≤ (exp64 x).toNat ∧ (exp64 x).toNat ≤ 2046)) with
    hzero | ⟨hlow, hhigh⟩ | ⟨hlow, hhigh⟩ | ⟨hlow, hhigh⟩
  · exact narrowsTo_of_exp_zero c hzero
  · exact narrowsTo_of_tiny c hlow hhigh
  · exact narrowsTo_of_normal c hlow hhigh
  · refine .inl ⟨units_inf32_le hlow, ?_⟩
    rw [narrow_of_overflow c hlow hhigh, mag32_withSign32, apply_ite BitVec.toNat]
    rfl

end

/-! ### The statements on NARROW's bits -/

section
variable {x : Double} (c : Config)

/-- (2 - 2^-24) × 2^127 lies halfway between the largest finite binary32 number and 2^128. -/
theorem overflowBound_eq_units :
    (2 - (2 : ℚ) ^ (-24 : ℤ)) * 2 ^ 127 = (units 52 0 (1150 * 2 ^ 52 + (2 ^ 52 - 2 ^ 28)) : ℚ) * unit := by
  rw [← normal_eq_units (z := 127) 0 (by decide) (by decide) (by norm_num)]
  norm_num

theorem narrow_of_huge (hhigh : (exp64 x).toNat ≤ 2046) (h : 1150 * 2 ^ 52 + (2 ^ 52 - 2 ^ 28) ≤ mag64 x) :
    narrow c x = withSign32 (sign64 x) (if c.narrowRnd = .rne then 0x7F800000#31 else 0x7F7FFFFF#31) := by
  have hfrac := (frac64 x).isLt
  rw [mag64_eq_fields] at h
  rcases (by omega : 1151 ≤ (exp64 x).toNat ∨ (exp64 x).toNat = 1150) with hover | hexp
  · exact narrow_of_overflow c hover hhigh
  · have hkept : keptNormal x = 0x7F7FFFFF := by rw [keptNormal]; omega
    have hup : 2 ^ 28 < (frac64 x).toNat % 2 ^ 29 ∨ ((frac64 x).toNat % 2 ^ 29 = 2 ^ 28 ∧ 0x7F7FFFFF % 2 = 1) := by
      omega
    rw [narrow_of_normal c (by omega) (by omega), hkept, rounded_eq_ite]
    rw [if_congr (and_iff_left hup) rfl rfl]
    split_ifs <;> rfl

theorem mag32_narrow_of_huge (hhigh : (exp64 x).toNat ≤ 2046) (h : 1150 * 2 ^ 52 + (2 ^ 52 - 2 ^ 28) ≤ mag64 x) :
    0x7F7FFFFF ≤ mag32 (narrow c x) ∧ mag32 (narrow c x) ≤ 0x7F800000 := by
  rw [narrow_of_huge c hhigh h, mag32_withSign32]
  split_ifs <;> decide

end

/-- Settles O32: overflow, the normal case's kept and discarded bits, and the magnitudes whose rounding carries into
infinity. -/
theorem narrowOfNormalOperands : Obligations.NarrowOfNormalOperands := by
  intro c x s field e f t r hlow hhigh
  have hoverflow : withSign32 (sign64 x) (if c.narrowRnd = .rne then 0x7F800000#31 else 0x7F7FFFFF#31) =
      s ||| if c.narrowRnd = .rne then 0x7F800000#32 else 0x7F7FFFFF#32 := by
    refine withSign32_eq_signBit_or _ ?_
    split_ifs <;> rfl
  refine ⟨fun he => ?_, fun he he' => ?_, fun hhuge => ?_⟩
  · rw [narrow_of_overflow c (show 1151 ≤ field by omega) hhigh, hoverflow]
  · have hfield : field ≤ 1150 := by omega
    have hle := rounded_le c (keptNormal x) ((frac64 x).toNat % 2 ^ 29) (2 ^ 28)
    have hkept := keptNormal_lt hfield
    rw [narrow_of_normal c (show 897 ≤ field by omega) hfield, withSign32_ofNat (sign64 x) (by omega), rounded_eq_ite]
    rfl
  · rw [overflowBound_eq_units, finiteMag64_eq_units, unit_mul_le_iff, units_le_units] at hhuge
    obtain ⟨hmag, hmag'⟩ := mag32_narrow_of_huge c hhigh hhuge
    refine ⟨by rw [narrow_of_huge c hhigh hhuge, hoverflow], ?_⟩
    have hinf := packMagnitude_of_huge (by omega) hmag'
    rw [packFunction, pack32_filled_eq_signBit_or (m := 0x7C00#16) hinf.symm, sign32_narrow]
    rfl

/-- Settles O33: at most 23 bits of the significand are kept, so the table stage underflows. -/
theorem narrowOfTinyOperands : Obligations.NarrowOfTinyOperands := by
  intro c x s field m n keep r hlow hhigh
  have hkept := keptTiny_lt (x := x) hhigh
  have hle := rounded_le c (keptTiny x) (discardedTiny x) (2 ^ (926 - (exp64 x).toNat - 1))
  have hnarrow := narrow_of_tiny c hlow hhigh
  have hexp : (exp32 (narrow c x)).toNat ≤ 1 := by
    have hmag := mag32_eq_fields (narrow c x)
    rw [hnarrow, mag32_withSign32, BitVec.toNat_ofNat, ← hnarrow] at hmag
    omega
  refine ⟨by omega, ?_, hexp, ?_⟩
  · rw [hnarrow, withSign32_ofNat (sign64 x) (by omega), rounded_eq_ite]
    rfl
  · rw [packFunction, pack32_filled_of_underflow (by omega), sign32_narrow]
    rfl

/-! ### Rounding toward zero -/

/-- Under RTZ NARROW takes the largest finite magnitude not above the operand's. -/
theorem NarrowsTo.of_rtz {c : Config} {U n : Nat} (hrtz : c.narrowRnd = .rtz) (h : NarrowsTo c U n) :
    n < 0x7F800000 ∧ units 23 lsb32 n ≤ U ∧ ∀ g < 0x7F800000, units 23 lsb32 g ≤ U → g ≤ n := by
  have hne : c.narrowRnd ≠ .rne := by rw [hrtz]; decide
  rcases h with ⟨hover, hn⟩ | ⟨t, ht, hfloor, hn⟩
  · rw [if_neg hne] at hn
    refine ⟨by omega, (units_le_units.2 (by omega)).trans hover, fun g hg _ => by omega⟩
  · rw [if_neg fun hup => hne hup.1] at hn
    subst hn
    exact ⟨ht, hfloor.1, fun g _ hg => hfloor.units_le_iff.1 hg⟩

/-- Settles O35, in units of 2^-1074. -/
theorem narrowTowardZeroTruncates : Obligations.NarrowTowardZeroTruncates := by
  intro c x hrtz hfin
  obtain ⟨hlt, hle, hmax⟩ := (narrowsTo_mag32_narrow c hfin).of_rtz hrtz
  simp only [finiteMag32_eq_units, finiteMag64_eq_units, unit_mul_le_iff, units_le_units]
  exact ⟨sign32_narrow c x, exp32_ne_max_iff.2 hlt, hle, fun b hb hbx => hmax _ (exp32_ne_max_iff.1 hb) hbx⟩

/-- A truncation of `V` is one of `U` above it, where no binary16 magnitude lies between. -/
theorem TruncatesTo16.of_no_magnitude_between {V U k : Nat} (h : TruncatesTo16 V k) (hVU : V ≤ U)
    (hbetween : ∀ g ≤ 0x7C00, units 10 lsb16 g ≤ U → units 10 lsb16 g ≤ V) : TruncatesTo16 U k := by
  rcases h with ⟨hover, hk⟩ | ⟨hk, hlow, hhigh⟩
  · exact .inl ⟨hover.trans hVU, hk⟩
  · exact .inr ⟨hk, hlow.trans hVU, Nat.lt_of_not_le fun hge => Nat.not_le.2 hhigh (hbetween _ hk hge)⟩

/-- Settles O38: every binary16 magnitude is a binary32 one, so truncating through binary32 skips none. -/
theorem packTowardZeroTruncatesOperand : Obligations.PackTowardZeroTruncatesOperand := by
  intro c x hrtz hfin
  obtain ⟨hlt, hle, hmax⟩ := (narrowsTo_mag32_narrow c hfin).of_rtz hrtz
  have hbetween : ∀ g ≤ 0x7C00, units 10 lsb16 g ≤ units 52 0 (mag64 x) →
      units 10 lsb16 g ≤ units 23 lsb32 (mag32 (narrow c x)) := by
    intro g hg hgx
    obtain ⟨g', hg'⟩ := exists_units_eq_units (p := 10) (p' := 23) (s := lsb16) (s' := lsb32) (by decide)
      (by rw [lsb16_eq, lsb32_eq]; decide) g
    have hg'max : g' ≤ 0x47800000 := by
      rw [← units_le_units (p := 23) (s := lsb32), hg', ← units_inf16_eq, units_le_units]
      exact hg
    rw [← hg'] at hgx ⊢
    exact units_le_units.2 (hmax g' (by omega) hgx)
  have htrunc := (truncatesTo16_packMagnitude hlt.le).of_no_magnitude_between hle hbetween
  rw [← mag16_pack32] at htrunc
  simpa [finiteMag64_eq_units, packFunction] using htrunc.isTruncation

/-! ### Rounding to nearest -/

/-- Of two neighbours `a < b` around `u`, the one on `u`'s side of the middle is nearest among all numbers not between
them, and strictly so unless `u` is the middle. -/
theorem nearest_of_neighbours {a b u n o : Nat} (hau : a ≤ u) (hub : u < b) (ho : o ≤ a ∨ b ≤ o)
    (hn : n = a ∧ 2 * u ≤ a + b ∨ n = b ∧ a + b ≤ 2 * u) :
    |(n : ℚ) - u| ≤ |(o : ℚ) - u| ∧ (|(n : ℚ) - u| = |(o : ℚ) - u| → o ≠ n → 2 * u = a + b) := by
  have habs (k : Nat) : |(k : ℚ) - u| = (((k : ℤ) - u).natAbs : ℚ) := by
    rw [Nat.cast_natAbs]
    push_cast
    rfl
  rw [habs, habs, Nat.cast_le, Nat.cast_inj]
  omega

/-- Under RNE no magnitude is nearer than the finite one NARROW gives, which is even where another is as near. -/
theorem NarrowsTo.nearest {c : Config} {U n : Nat} (hrne : c.narrowRnd = .rne) (h : NarrowsTo c U n)
    (hfin : n < 0x7F800000) (g : Nat) :
    |(units 23 lsb32 n : ℚ) - U| ≤ |(units 23 lsb32 g : ℚ) - U| ∧
      (|(units 23 lsb32 n : ℚ) - U| = |(units 23 lsb32 g : ℚ) - U| → units 23 lsb32 g ≠ units 23 lsb32 n →
        n % 2 = 0) := by
  rcases h with ⟨-, hn⟩ | ⟨t, -, ⟨hlow, hhigh⟩, hn⟩
  · rw [if_pos hrne] at hn
    omega
  · simp only [hrne, true_and] at hn
    have hg : units 23 lsb32 g ≤ units 23 lsb32 t ∨ units 23 lsb32 (t + 1) ≤ units 23 lsb32 g := by
      simp only [units_le_units]
      omega
    split at hn <;> subst hn
    · obtain ⟨hle, htie⟩ := nearest_of_neighbours hlow hhigh hg (.inr ⟨rfl, by omega⟩)
      exact ⟨hle, fun heq hne => by have := htie heq hne; omega⟩
    · obtain ⟨hle, htie⟩ := nearest_of_neighbours hlow hhigh hg (.inl ⟨rfl, by omega⟩)
      exact ⟨hle, fun heq hne => by have := htie heq hne; omega⟩

@[simp] theorem signFactor_zero : signFactor 0#1 = 1 := by simp [signFactor]
@[simp] theorem signFactor_one : signFactor 1#1 = -1 := by simp [signFactor]

/-- The distance of two signed magnitudes: their difference under one sign, their sum under two. -/
theorem abs_signed_sub (s s' : BitVec 1) (a u : Nat) :
    |signFactor s * ((a : ℚ) * unit) - signFactor s' * ((u : ℚ) * unit)| =
      (if s = s' then |(a : ℚ) - u| else (a : ℚ) + u) * unit := by
  have hunit := abs_of_pos unit_pos
  have hsum : |(a : ℚ) + u| = a + u := abs_of_nonneg (by positivity)
  rcases BitVec.eq_zero_or_eq_one s with rfl | rfl <;> rcases BitVec.eq_zero_or_eq_one s' with rfl | rfl
  · rw [if_pos rfl, signFactor_zero, one_mul, one_mul, ← sub_mul, abs_mul, hunit]
  · rw [if_neg (by decide), signFactor_zero, signFactor_one, one_mul, neg_one_mul, sub_neg_eq_add, ← add_mul, abs_mul,
      hunit, hsum]
  · rw [if_neg (by decide), signFactor_zero, signFactor_one, one_mul, neg_one_mul, ← neg_add', abs_neg, ← add_mul,
      abs_mul, hunit, hsum]
  · rw [if_pos rfl, signFactor_one, neg_one_mul, neg_one_mul, neg_sub_neg, abs_sub_comm, ← sub_mul, abs_mul, hunit]

/-- The bits' parity is the magnitude's. -/
theorem getLsbD_zero_eq_false_of_mag32 {b : Single} (h : mag32 b % 2 = 0) : b.getLsbD 0 = false := by
  rw [mag32] at h
  rw [BitVec.getLsbD, Nat.testBit_zero, decide_eq_false_iff_not]
  omega

/-- Settles O34: a number of the operand's sign by its magnitude, a number of the other sign by way of zero. -/
theorem narrowRoundsToNearestEven : Obligations.NarrowRoundsToNearestEven := by
  intro c x hrne hfin
  refine ⟨sign32_narrow c x, fun hfin' => ?_⟩
  intro v near b _ other
  have hnearest := (narrowsTo_mag32_narrow c hfin).nearest hrne (exp32_ne_max_iff.1 hfin')
  have hv : v = signFactor (sign64 x) * ((units 52 0 (mag64 x) : ℚ) * unit) := by
    rw [← finiteMag64_eq_units]
  have hnear : near = signFactor (sign64 x) * ((units 23 lsb32 (mag32 (narrow c x)) : ℚ) * unit) := by
    rw [← finiteMag32_eq_units, ← sign32_narrow c x]
  have hother : other = signFactor (sign32 b) * ((units 23 lsb32 (mag32 b) : ℚ) * unit) := by
    rw [← finiteMag32_eq_units]
  rw [hv, hnear, hother, abs_signed_sub, abs_signed_sub, if_pos rfl, mul_le_mul_iff_left₀ unit_pos,
    mul_left_inj' unit_pos.ne']
  by_cases hsign : sign32 b = sign64 x
  · obtain ⟨hle, htie⟩ := hnearest (mag32 b)
    rw [if_pos hsign]
    refine ⟨hle, fun heq hne => getLsbD_zero_eq_false_of_mag32 (htie heq fun hunits => hne ?_)⟩
    rw [hsign, hunits]
  · obtain ⟨hle, htie⟩ := hnearest 0
    rw [units_zero, Nat.cast_zero, zero_sub, abs_neg, Nat.abs_cast] at hle htie
    have hpos : (0 : ℚ) ≤ units 23 lsb32 (mag32 b) := Nat.cast_nonneg _
    rw [if_neg hsign]
    refine ⟨by linarith, fun heq hne => getLsbD_zero_eq_false_of_mag32 (htie (by linarith) fun hunits => hne ?_)⟩
    have hzero : (units 23 lsb32 (mag32 b) : ℚ) = 0 := by linarith
    rw [hzero, ← hunits, Nat.cast_zero, zero_mul, mul_zero, mul_zero]

/-! ### Monotonicity (spec 41 R122) -/

theorem NarrowsTo.le {c : Config} {U n : Nat} (h : NarrowsTo c U n) : n ≤ 0x7F800000 := by
  rcases h with ⟨-, hn⟩ | ⟨t, ht, -, hn⟩ <;> split at hn <;> omega

/-- A larger operand has no smaller truncation, and where both have the same one it is rounded up if the smaller
operand is. -/
theorem NarrowsTo.mono {c : Config} {U U' n n' : Nat} (h : NarrowsTo c U n) (h' : NarrowsTo c U' n') (hU : U ≤ U') :
    n ≤ n' := by
  have hle := h.le
  by_cases hrne : c.narrowRnd = .rne
  · rcases h' with ⟨-, hn'⟩ | ⟨t', ht', hfloor', hn'⟩
    · rw [if_pos hrne] at hn'
      exact hn' ▸ hle
    · rcases h with ⟨hover, -⟩ | ⟨t, -, hfloor, hn⟩
      · exact absurd (hfloor'.units_le_iff.1 (hover.trans hU)) (Nat.not_le.2 ht')
      · simp only [hrne, true_and] at hn hn'
        rcases Nat.lt_or_eq_of_le (hfloor.mono hfloor' hU) with hlt | rfl <;> split at hn <;> split at hn' <;> omega
  · have hrtz : c.narrowRnd = .rtz := by cases hc : c.narrowRnd <;> simp_all
    obtain ⟨hlt, hbelow, -⟩ := h.of_rtz hrtz
    obtain ⟨-, -, hmax⟩ := h'.of_rtz hrtz
    exact hmax n hlt (hbelow.trans hU)

theorem mag64_eq_inf {x : Double} (hexp : exp64 x = 2047#11) (hle : mag64 x ≤ 0x7FF0000000000000) :
    frac64 x = 0#52 := by
  rw [mag64_eq_fields, hexp] at hle
  refine BitVec.eq_of_toNat_eq ?_
  rw [BitVec.toNat_ofNat] at hle ⊢
  omega

theorem mag32_narrow_of_infinity (c : Config) {x : Double} (hexp : exp64 x = 2047#11)
    (hle : mag64 x ≤ 0x7FF0000000000000) : mag32 (narrow c x) = 0x7F800000 := by
  rw [narrow_of_infinity c (congrArg BitVec.toNat hexp) (mag64_eq_inf hexp hle), mag32_withSign32]
  rfl

section
variable (c : Config) {x y : Double}

theorem mag32_narrow_le (hx : mag64 x ≤ 0x7FF0000000000000) : mag32 (narrow c x) ≤ 0x7F800000 := by
  by_cases hexp : exp64 x = 2047#11
  · rw [mag32_narrow_of_infinity c hexp hx]
  · exact (narrowsTo_mag32_narrow c hexp).le

theorem mag32_narrow_mono (hy : mag64 y ≤ 0x7FF0000000000000) (hxy : mag64 x ≤ mag64 y) :
    mag32 (narrow c x) ≤ mag32 (narrow c y) := by
  by_cases hexp : exp64 y = 2047#11
  · rw [mag32_narrow_of_infinity c hexp hy]
    exact mag32_narrow_le c (hxy.trans hy)
  · have hexp' : exp64 x ≠ 2047#11 := exp64_ne_max_iff.2 (hxy.trans_lt (exp64_ne_max_iff.1 hexp))
    exact (narrowsTo_mag32_narrow c hexp').mono (narrowsTo_mag32_narrow c hexp) (units_le_units.2 hxy)

/-- PACK is monotone on magnitudes. -/
theorem mag16_pack_mono (hy : mag64 y ≤ 0x7FF0000000000000) (hxy : mag64 x ≤ mag64 y) :
    mag16 (packFunction c Tables.filled x) ≤ mag16 (packFunction c Tables.filled y) := by
  rw [packFunction, packFunction, mag16_pack32, mag16_pack32]
  exact (truncatesTo16_packMagnitude (mag32_narrow_le c (hxy.trans hy))).mono
    (truncatesTo16_packMagnitude (mag32_narrow_le c hy)) (units_le_units.2 (mag32_narrow_mono c hy hxy))

theorem mag16_pack_of_zero (h : mag64 x = 0) : mag16 (packFunction c Tables.filled x) = 0 := by
  have hexp : (exp64 x).toNat = 0 := by rw [mag64_eq_fields] at h; omega
  have hmag : mag32 (narrow c x) = 0 := by rw [narrow_of_exp_zero c hexp, mag32_withSign32]; rfl
  have hexp32 : (exp32 (narrow c x)).toNat = 0 := by rw [mag32_eq_fields] at hmag; omega
  rw [packFunction, mag16_pack32, packMagnitude_of_underflow (by omega)]

@[simp] theorem sign16_packFunction : sign16 (packFunction c Tables.filled x) = sign64 x := by simp [packFunction]

end

/-- A magnitude under a sign, as an integer. -/
def signed (s : BitVec 1) (k : Nat) : Int := if s = 1#1 then -(k : Int) else k

@[simp] theorem signed_zero (k : Nat) : signed 0#1 k = k := rfl
@[simp] theorem signed_one (k : Nat) : signed 1#1 k = -(k : Int) := rfl

theorem ord16_eq_signed (h : Half) : ord16 h = signed (sign16 h) (mag16 h) := by
  have hmag : (h &&& 0x7FFF#16).toNat = mag16 h := by
    rw [BitVec.toNat_and, show (0x7FFF#16).toNat = 2 ^ 15 - 1 from rfl, Nat.and_two_pow_sub_one_eq_mod, mag16]
  rw [ord16, hmag, signed]

/-! ### Real order of binary64 operands -/

theorem value64_of_nan {x : Double} (h : 0x7FF0000000000000 < mag64 x) : value64 x = .nan := by
  have hexp : exp64 x = 2047#11 := by
    by_contra hne
    have := exp64_ne_max_iff.1 hne
    omega
  have hfrac : frac64 x ≠ 0#52 := by
    rintro h0
    rw [mag64_eq_fields, hexp, h0] at h
    exact absurd h (by decide)
  rw [value64, if_pos (class64_isNan_iff.2 ⟨hexp, hfrac⟩)]

theorem value64_of_infinity {x : Double} (h : mag64 x = 0x7FF0000000000000) :
    value64 x = .infinite (sign64 x == 1#1) := by
  have hexp : exp64 x = 2047#11 := by
    by_contra hne
    have := exp64_ne_max_iff.1 hne
    omega
  have hinf := class64_eq_infinity_iff.2 ⟨hexp, mag64_eq_inf hexp h.le⟩
  simp [value64, hinf, FpClass.isNan]

theorem value64_of_finite {x : Double} (h : mag64 x < 0x7FF0000000000000) :
    value64 x = .finite (signFactor (sign64 x) * ((units 52 0 (mag64 x) : ℚ) * unit)) := by
  have hexp := exp64_ne_max_iff.2 h
  rw [value64, if_neg fun hnan => hexp (class64_isNan_iff.1 hnan).1,
    if_neg fun hinf => hexp (class64_eq_infinity_iff.1 hinf).1, finiteMag64_eq_units]

/-- A format's magnitudes are ordered as the numbers their bits are, under signs too; both zeros are 0. -/
theorem signed_le_of_signed_units_le {p s : Nat} {sx sy : BitVec 1} {k k' : Nat}
    (h : signed sx (units p s k) ≤ signed sy (units p s k')) : signed sx k ≤ signed sy k' := by
  have hk : k ≤ units p s k := (units_strictMono p s).le_apply
  have hk' : k' ≤ units p s k' := (units_strictMono p s).le_apply
  rcases BitVec.eq_zero_or_eq_one sx with rfl | rfl <;> rcases BitVec.eq_zero_or_eq_one sy with rfl | rfl <;>
    simp only [signed_zero, signed_one] at h ⊢
  · exact Int.ofNat_le.2 (units_le_units.1 (Int.ofNat_le.1 h))
  · omega
  · omega
  · exact neg_le_neg (Int.ofNat_le.2 (units_le_units.1 (Int.ofNat_le.1 (neg_le_neg_iff.1 h))))

theorem signFactor_mul_unit (s : BitVec 1) (k : Nat) : signFactor s * ((k : ℚ) * unit) = (signed s k : ℚ) * unit := by
  rcases BitVec.eq_zero_or_eq_one s with rfl | rfl <;> simp

theorem FpValue.not_nan_le (v : FpValue) : ¬ FpValue.nan.le v := by simp [FpValue.le]

theorem FpValue.not_le_nan (v : FpValue) : ¬ v.le FpValue.nan := by cases v <;> simp [FpValue.le]

section
variable {x y : Double}

/-- An operand that stands in real order is no NaN. -/
theorem mag64_le_of_le_left (h : (value64 x).le (value64 y)) : mag64 x ≤ 0x7FF0000000000000 :=
  Nat.le_of_not_lt fun hnan => FpValue.not_nan_le _ (value64_of_nan hnan ▸ h)

theorem mag64_le_of_le_right (h : (value64 x).le (value64 y)) : mag64 y ≤ 0x7FF0000000000000 :=
  Nat.le_of_not_lt fun hnan => FpValue.not_le_nan _ (value64_of_nan hnan ▸ h)

/-- Operands in real order have their signed magnitudes in order: infinities stand at the ends, finite operands compare
by their units. -/
theorem signed_mag64_le_of_le (h : (value64 x).le (value64 y)) :
    signed (sign64 x) (mag64 x) ≤ signed (sign64 y) (mag64 y) := by
  have hsx := BitVec.eq_zero_or_eq_one (sign64 x)
  have hsy := BitVec.eq_zero_or_eq_one (sign64 y)
  rcases Nat.lt_or_eq_of_le (mag64_le_of_le_left h) with hx | hx <;>
    rcases Nat.lt_or_eq_of_le (mag64_le_of_le_right h) with hy | hy
  · rw [value64_of_finite hx, value64_of_finite hy, signFactor_mul_unit, signFactor_mul_unit, FpValue.le,
      mul_le_mul_iff_left₀ unit_pos, Int.cast_le] at h
    exact signed_le_of_signed_units_le h
  · rw [value64_of_finite hx, value64_of_infinity hy] at h
    rcases hsy with hs | hs
    · rcases hsx with hs' | hs' <;> rw [hs, hs'] <;> simp only [signed_zero, signed_one] <;> omega
    · simp [hs, FpValue.le] at h
  · rw [value64_of_infinity hx, value64_of_finite hy] at h
    rcases hsx with hs | hs
    · simp [hs, FpValue.le] at h
    · rcases hsy with hs' | hs' <;> rw [hs, hs'] <;> simp only [signed_zero, signed_one] <;> omega
  · rw [value64_of_infinity hx, value64_of_infinity hy] at h
    rw [hx, hy]
    rcases hsx with hs | hs <;> rcases hsy with hs' | hs' <;> simp only [hs, hs'] at h ⊢
    · exact le_rfl
    · simp [FpValue.le] at h
    · decide
    · exact le_rfl

end

/-- Settles O40: PACK is monotone on magnitudes and keeps the sign and zero, so it is monotone on signed magnitudes. -/
theorem packIsMonotone : Obligations.PackIsMonotone := by
  intro c x y h
  have hx := mag64_le_of_le_left h
  have hy := mag64_le_of_le_right h
  have hle := signed_mag64_le_of_le h
  rw [ord16_eq_signed, ord16_eq_signed, sign16_packFunction, sign16_packFunction]
  rcases BitVec.eq_zero_or_eq_one (sign64 x) with hsx | hsx <;>
    rcases BitVec.eq_zero_or_eq_one (sign64 y) with hsy | hsy <;> rw [hsx, hsy] at hle ⊢ <;>
    simp only [signed_zero, signed_one] at hle ⊢
  · exact Int.ofNat_le.2 (mag16_pack_mono c hy (Int.ofNat_le.1 hle))
  · rw [mag16_pack_of_zero c (x := x) (by omega), mag16_pack_of_zero c (x := y) (by omega)]
    rfl
  · omega
  · exact neg_le_neg (Int.ofNat_le.2 (mag16_pack_mono c hx (by omega)))

end Sys2Proof.Machine
end

section
/-! The statements of spec 42: UNPACK32 and WIDEN as operations on magnitudes, and the laws of UNPACK. -/

namespace Sys2Proof.Machine

/-! ### UNPACK32's two addends (spec 42 R131) -/

/-- EXPONENT's entry under a sign bit is the positive one with bit 31 set. -/
theorem exponentContents_toNat_add_32 {i : Nat} (h : i < 32) :
    (exponentContents (i + 32)).toNat = 2 ^ 31 + (exponentContents i).toNat := by
  rcases (by omega : i ≤ 30 ∨ i = 31) with hlow | rfl
  · rw [exponentContents_toNat_of_negative (by omega) (by omega), exponentContents_toNat_of_positive hlow,
      Nat.add_sub_cancel]
    rfl
  · rfl

theorem exp16_lt (h : Half) : (exp16 h).toNat < 32 := (exp16 h).isLt

/-- EXPONENT at a half's index: the sign bit above the entry of E16. -/
theorem exponentContents_expIdxOf_toNat (h : Half) : (exponentContents (expIdxOf h).toNat).toNat =
    (sign16 h).toNat * 2 ^ 31 + (exponentContents (exp16 h).toNat).toNat := by
  rw [expIdxOf_toNat_fields]
  rcases BitVec.eq_zero_or_eq_one (sign16 h) with hs | hs <;> rw [hs]
  · simp
  · rw [show (1#1).toNat * 2 ^ 5 + (exp16 h).toNat = (exp16 h).toNat + 32 from Nat.add_comm _ _,
      exponentContents_toNat_add_32 (exp16_lt h)]
    rfl

/-- The MANTISSA index of a half, by the two values of OFFSET. -/
theorem mantIdxOf_filled_toNat_eq_ite (h : Half) : (mantIdxOf Tables.filled h).toNat =
    (if exp16 h = 0#5 then 0 else 1024) + (man16 h).toNat := by
  rw [mantIdxOf_filled_toNat, Tables.filled_readOffset, offsetContents_expIdxOf]
  split_ifs <;> rfl

/-- The magnitude UNPACK32 gives: the sum of the two entries' parts below the sign bit. -/
def unpackMagnitude (h : Half) : Nat :=
  (mantissaContents (mantIdxOf Tables.filled h).toNat).toNat + (exponentContents (exp16 h).toNat).toNat

/-- UNPACK32's two entries add up to the magnitude under the sign bit. -/
theorem unpackSum_eq (h : Half) : (Tables.filled.readMantissa (mantIdxOf Tables.filled h)).toNat +
    (Tables.filled.readExponent (expIdxOf h)).toNat = (sign16 h).toNat * 2 ^ 31 + unpackMagnitude h := by
  rw [Tables.filled_readMantissa, Tables.filled_readExponent, exponentContents_expIdxOf_toNat, unpackMagnitude]
  omega

/-! ### The magnitude by class (spec 42 R133) -/

section
variable {h : Half}

theorem unpackMagnitude_of_zero (hexp : (exp16 h).toNat = 0) (hman : (man16 h).toNat = 0) : unpackMagnitude h = 0 := by
  have hexp' : exp16 h = 0#5 := BitVec.eq_of_toNat_eq hexp
  rw [unpackMagnitude, mantIdxOf_filled_toNat_eq_ite, if_pos hexp', hman, hexp]
  rfl

theorem unpackMagnitude_of_denormal {p : Nat} (hexp : (exp16 h).toNat = 0) (hlow : 2 ^ p ≤ (man16 h).toNat)
    (hhigh : (man16 h).toNat < 2 ^ (p + 1)) :
    unpackMagnitude h = (p + 103) * 2 ^ 23 + (man16 h).toNat * 2 ^ (23 - p) % 2 ^ 23 := by
  have hexp' : exp16 h = 0#5 := BitVec.eq_of_toNat_eq hexp
  have hman : (man16 h).toNat ≤ 1023 := Nat.le_of_lt_succ (man16 h).isLt
  have hp := leading_bit_le_nine hman hlow
  rw [unpackMagnitude, mantIdxOf_filled_toNat_eq_ite, if_pos hexp', hexp, Nat.zero_add,
    mantissaContents_of_lt (Nat.one_le_two_pow.trans hlow) hman, renorm_of_log hman hlow hhigh, Nat.shiftLeft_eq,
    Nat.shiftLeft_eq, show 0x007FFFFF = 2 ^ 23 - 1 from rfl, Nat.and_two_pow_sub_one_eq_mod,
    ← add_eq_or_of_dvd_of_lt (Nat.dvd_mul_left _ _) (Nat.mod_lt _ (Nat.two_pow_pos 23)), BitVec.toNat_ofNat,
    Nat.mod_eq_of_lt (by omega), exponentContents_toNat_of_positive (Nat.zero_le 30), Nat.zero_mul, Nat.add_zero]

/-- The MANTISSA entry of a half that is no zero and no denormal. -/
theorem mantissaContents_of_exp_ne_zero (hexp : 1 ≤ (exp16 h).toNat) :
    (mantissaContents (mantIdxOf Tables.filled h).toNat).toNat = 112 * 2 ^ 23 + (man16 h).toNat * 2 ^ 13 := by
  have hexp' : exp16 h ≠ 0#5 := fun h0 => by simp [h0] at hexp
  have hman := (man16 h).isLt
  rw [mantIdxOf_filled_toNat_eq_ite, if_neg hexp', mantissaContents_toNat_of_ge (by omega) (by omega)]
  omega

theorem unpackMagnitude_of_normal (hlow : 1 ≤ (exp16 h).toNat) (hhigh : (exp16 h).toNat ≤ 30) :
    unpackMagnitude h = ((exp16 h).toNat + 112) * 2 ^ 23 + (man16 h).toNat * 2 ^ 13 := by
  rw [unpackMagnitude, mantissaContents_of_exp_ne_zero hlow, exponentContents_toNat_of_positive hhigh]
  ring

theorem unpackMagnitude_of_max (hexp : (exp16 h).toNat = 31) :
    unpackMagnitude h = 255 * 2 ^ 23 + (man16 h).toNat * 2 ^ 13 := by
  rw [unpackMagnitude, mantissaContents_of_exp_ne_zero (by omega), hexp,
    show (exponentContents 31).toNat = 143 * 2 ^ 23 from rfl]
  ring

end

/-- The classes of a half: zero, denormal with its leading bit, normal, and infinity or NaN. -/
theorem half_cases (h : Half) :
    ((exp16 h).toNat = 0 ∧ (man16 h).toNat = 0) ∨
      ((exp16 h).toNat = 0 ∧ ∃ p ≤ 9, 2 ^ p ≤ (man16 h).toNat ∧ (man16 h).toNat < 2 ^ (p + 1)) ∨
      (1 ≤ (exp16 h).toNat ∧ (exp16 h).toNat ≤ 30) ∨ (exp16 h).toNat = 31 := by
  have hexp := exp16_lt h
  have hman := (man16 h).isLt
  rcases (by omega : ((exp16 h).toNat = 0 ∧ 0 < (man16 h).toNat) ∨ ((exp16 h).toNat = 0 ∧ (man16 h).toNat = 0) ∨
      (1 ≤ (exp16 h).toNat ∧ (exp16 h).toNat ≤ 30) ∨ (exp16 h).toNat = 31) with ⟨hzero, hpos⟩ | hzero | hrest
  · have hlow : 2 ^ (man16 h).toNat.log2 ≤ (man16 h).toNat := Nat.log2_self_le hpos.ne'
    exact .inr (.inl ⟨hzero, _, leading_bit_le_nine (by omega) hlow, hlow, Nat.lt_log2_self⟩)
  · exact .inl hzero
  · exact .inr (.inr hrest)

/-- The largest magnitude is the one of 0xFFFF (spec 42 R132). -/
theorem unpackMagnitude_le (h : Half) : unpackMagnitude h ≤ 0x7FFFE000 := by
  have hman := (man16 h).isLt
  rcases half_cases h with ⟨hexp, hzero⟩ | ⟨hexp, p, hp, hlow, hhigh⟩ | ⟨hlow, hhigh⟩ | hmax
  · rw [unpackMagnitude_of_zero hexp hzero]; omega
  · rw [unpackMagnitude_of_denormal hexp hlow hhigh]; omega
  · rw [unpackMagnitude_of_normal hlow hhigh]; omega
  · rw [unpackMagnitude_of_max hmax]; omega

/-- UNPACK32 is the sign above the magnitude: its sum is below 2^32, so nothing is cut. -/
theorem unpack32_filled_toNat (h : Half) :
    (unpack32 Tables.filled h).toNat = (sign16 h).toNat * 2 ^ 31 + unpackMagnitude h := by
  have hs := (sign16 h).isLt
  have hm := unpackMagnitude_le h
  rw [unpack32_toNat, unpackSum_eq]
  omega

@[simp] theorem sign32_unpack32 (h : Half) : sign32 (unpack32 Tables.filled h) = sign16 h := by
  refine BitVec.eq_of_toNat_eq ?_
  have := unpackMagnitude_le h
  rw [sign32_toNat, unpack32_filled_toNat]
  omega

@[simp] theorem mag32_unpack32 (h : Half) : mag32 (unpack32 Tables.filled h) = unpackMagnitude h := by
  have := unpackMagnitude_le h
  rw [mag32, unpack32_filled_toNat]
  omega

/-- UNPACK32 of a magnitude, written as a pattern under the sign bit. -/
theorem unpack32_filled_eq_signBit_or {h : Half} {m : Single} (hm : m.toNat = unpackMagnitude h) :
    unpack32 Tables.filled h = (sign16 h).setWidth 32 <<< 31 ||| m := by
  have hle := unpackMagnitude_le h
  exact BitVec.eq_of_toNat_eq (by rw [unpack32_filled_toNat, signBit32_or_toNat _ (by omega), hm])

/-- Settles O12: completion with the response of the constant tables, whose index and sum are those of R131. -/
theorem unpackCompletesWithTableSum : Obligations.UnpackCompletesWithTableSum := by
  intro s h hinv hv hd idx mIdx bits
  have hfilled : s.tables = Tables.filled := ((State.inv_iff_of_valid hv).1 hinv).1
  have hidx : mantIdxOf s.tables h = BitVec.ofNat 11 mIdx := by rw [hfilled, mantIdxOf_eq_ofNat]; rfl
  have hbits : unpack32 Tables.filled h = bits := BitVec.eq_of_toNat_eq (by
    rw [unpack32_toNat, Tables.filled_readMantissa, mantIdxOf_filled_toNat, BitVec.toNat_ofNat]; rfl)
  rw [exec_completes_of_inv (i := .unpack h) hinv hv hd, responseOf, unpackFunction, hbits, ← hidx]
  rfl

/-- Settles O28: the magnitude leaves bit 31 to the sign. -/
theorem unpackAdditionNeverCarriesOut : Obligations.UnpackAdditionNeverCarriesOut := by
  constructor
  · intro h sum
    have hsum : sum = (sign16 h).toNat * 2 ^ 31 + unpackMagnitude h := unpackSum_eq h
    have hsign := (sign16 h).isLt
    have hle := unpackMagnitude_le h
    exact ⟨by omega, by rw [hsum, unpack32_filled_toNat]⟩
  · have hmax : unpackMagnitude 0xFFFF#16 = 0x7FFFE000 := unpackMagnitude_of_max (h := 0xFFFF#16) rfl
    exact unpack32_filled_eq_signBit_or (h := 0xFFFF#16) (m := 0x7FFFE000#32) hmax.symm

/-! ### The value of a sign and a magnitude (spec 30 R61 to R63) -/

/-- The value of the bits `k` below the sign, in a format of `p` fraction bits whose smallest magnitude is `2^s` units
and whose infinity is `inf`. -/
def valueOf (p s inf : Nat) (sign : BitVec 1) (k : Nat) : FpValue :=
  if inf < k then .nan
  else if k = inf then .infinite (sign == 1#1)
  else .finite (signFactor sign * ((units p s k : ℚ) * unit))

theorem class16_isNan_iff_mag {h : Half} : (class16 h).isNan = true ↔ 0x7C00 < mag16 h := by
  have hexp := (exp16 h).isLt
  have hman := (man16 h).isLt
  rw [class16_isNan_iff, Ne, ← BitVec.toNat_inj, ← BitVec.toNat_inj, mag16_eq_fields, BitVec.toNat_ofNat,
    BitVec.toNat_ofNat]
  omega

theorem class16_eq_infinity_iff {h : Half} : class16 h = .infinity ↔ mag16 h = 0x7C00 := by
  have hexp := (exp16 h).isLt
  have hman := (man16 h).isLt
  have hfields : class16 h = .infinity ↔ exp16 h = 31#5 ∧ man16 h = 0#10 := by
    unfold class16
    split_ifs with h0 _ h31 _ _ <;> simp_all
  rw [hfields, ← BitVec.toNat_inj, ← BitVec.toNat_inj, mag16_eq_fields, BitVec.toNat_ofNat, BitVec.toNat_ofNat]
  omega

theorem class32_isNan_iff_mag {b : Single} : (class32 b).isNan = true ↔ 0x7F800000 < mag32 b := by
  have hexp := (exp32 b).isLt
  have hman := (man32 b).isLt
  rw [class32_isNan_iff, Ne, ← BitVec.toNat_inj, ← BitVec.toNat_inj, mag32_eq_fields, BitVec.toNat_ofNat,
    BitVec.toNat_ofNat]
  omega

theorem class32_eq_infinity_iff_mag {b : Single} : class32 b = .infinity ↔ mag32 b = 0x7F800000 := by
  have hexp := (exp32 b).isLt
  have hman := (man32 b).isLt
  rw [class32_eq_infinity_iff, ← BitVec.toNat_inj, ← BitVec.toNat_inj, mag32_eq_fields, BitVec.toNat_ofNat,
    BitVec.toNat_ofNat]
  omega

theorem value16_eq_valueOf (h : Half) : value16 h = valueOf 10 lsb16 0x7C00 (sign16 h) (mag16 h) := by
  simp only [value16, valueOf, class16_isNan_iff_mag, class16_eq_infinity_iff, finiteMag16_eq_units]

theorem value32_eq_valueOf (b : Single) : value32 b = valueOf 23 lsb32 0x7F800000 (sign32 b) (mag32 b) := by
  simp only [value32, valueOf, class32_isNan_iff_mag, class32_eq_infinity_iff_mag, finiteMag32_eq_units]

theorem value64_eq_valueOf (x : Double) :
    value64 x = valueOf 52 0 0x7FF0000000000000 (sign64 x) (mag64 x) := by
  rw [valueOf]
  split_ifs with hnan hinf
  · exact value64_of_nan hnan
  · exact value64_of_infinity hinf
  · exact value64_of_finite (by omega)

section
variable {p s inf p' s' inf' k k' : Nat} (sign : BitVec 1)

/-- A NaN or infinity of one format has the value of one of another whose magnitude lies as far above its infinity. -/
theorem valueOf_congr_of_max (hk : inf ≤ k) (hk' : inf' ≤ k') (hinf : k = inf ↔ k' = inf') :
    valueOf p s inf sign k = valueOf p' s' inf' sign k' := by
  by_cases heq : k = inf
  · simp [valueOf, heq, hinf.1 heq]
  · have hlt : inf < k := by omega
    have hlt' : inf' < k' := by omega
    rw [valueOf, valueOf, if_pos hlt, if_pos hlt']

/-- Finite magnitudes of two formats have one value when they are as many units. -/
theorem valueOf_congr_of_finite (hk : k < inf) (hk' : k' < inf') (hunits : units p s k = units p' s' k') :
    valueOf p s inf sign k = valueOf p' s' inf' sign k' := by
  rw [valueOf, valueOf, if_neg hk.le.not_gt, if_neg hk.ne, if_neg hk'.le.not_gt, if_neg hk'.ne, hunits]

end

/-! ### A magnitude in a wider format -/

/-- A normal magnitude keeps its units where the mantissa moves up `d` bits and the exponent is rebiased. -/
theorem units_widen_normal {p d s s' e e' m : Nat} (he : 1 ≤ e) (he' : 1 ≤ e') (hm : m < 2 ^ p)
    (hbias : d + e' + s' = e + s) :
    units (p + d) s' (e' * 2 ^ (p + d) + m * 2 ^ d) = units p s (e * 2 ^ p + m) := by
  have hm' : m * 2 ^ d < 2 ^ (p + d) := by
    rw [pow_add]
    exact Nat.mul_lt_mul_of_pos_right hm (Nat.two_pow_pos d)
  have hexp : e - 1 + s = d + (e' - 1 + s') := by omega
  rw [units_of_normal s' he' hm', units_of_normal s he hm, pow_add 2 p d, ← Nat.add_mul, Nat.mul_assoc, ← pow_add, hexp]

/-- A number with leading bit `p`, shifted so that this bit becomes bit `w`. -/
theorem leading_bit_bounds {m p w : Nat} (hp : p ≤ w) (hlow : 2 ^ p ≤ m) (hhigh : m < 2 ^ (p + 1)) :
    2 ^ w ≤ m * 2 ^ (w - p) ∧ m * 2 ^ (w - p) < 2 ^ w * 2 := by
  have hpow : 2 ^ p * 2 ^ (w - p) = 2 ^ w := two_pow_mul_two_pow (Nat.add_sub_cancel' hp)
  constructor
  · rw [← hpow]
    exact Nat.mul_le_mul_right _ hlow
  · rw [← hpow, Nat.mul_right_comm, ← pow_succ]
    exact Nat.mul_lt_mul_of_pos_right hhigh (Nat.two_pow_pos _)

/-- A subnormal `m` with leading bit `p` keeps its units as the normal whose mantissa is what follows that bit. -/
theorem units_of_leading_bit {m p w e s : Nat} (hp : p ≤ w) (he : 1 ≤ e) (hlow : 2 ^ p ≤ m) (hhigh : m < 2 ^ (p + 1)) :
    units w s ((p + e) * 2 ^ w + m * 2 ^ (w - p) % 2 ^ w) = m * 2 ^ (w + e - 1 + s) := by
  obtain ⟨hlow', hhigh'⟩ := leading_bit_bounds hp hlow hhigh
  have hsig : 2 ^ w + m * 2 ^ (w - p) % 2 ^ w = m * 2 ^ (w - p) := by
    rw [Nat.mod_eq_sub_mod hlow', Nat.mod_eq_of_lt (by omega), Nat.add_sub_cancel' hlow']
  rw [units_of_normal s (by omega) (Nat.mod_lt _ (Nat.two_pow_pos w)), hsig, Nat.mul_assoc, ← pow_add,
    show w - p + (p + e - 1 + s) = w + e - 1 + s by omega]

/-! ### UNPACK32 is exact (spec 42 R133) -/

theorem unpackMagnitude_lt_of_finite {h : Half} (hfin : exp16 h ≠ 31#5) : unpackMagnitude h < 0x47800000 := by
  have hman := (man16 h).isLt
  rcases half_cases h with ⟨hexp, hzero⟩ | ⟨hexp, p, hp, hlow, hhigh⟩ | ⟨hlow, hhigh⟩ | hmax
  · rw [unpackMagnitude_of_zero hexp hzero]; decide
  · rw [unpackMagnitude_of_denormal hexp hlow hhigh]; omega
  · rw [unpackMagnitude_of_normal hlow hhigh]; omega
  · exact absurd (BitVec.eq_of_toNat_eq hmax) hfin

/-- A finite half and its UNPACK32 are as many units. -/
theorem units_unpackMagnitude {h : Half} (hfin : exp16 h ≠ 31#5) :
    units 23 lsb32 (unpackMagnitude h) = units 10 lsb16 (mag16 h) := by
  have hman := (man16 h).isLt
  rw [mag16_eq_fields]
  rcases half_cases h with ⟨hexp, hzero⟩ | ⟨hexp, p, hp, hlow, hhigh⟩ | ⟨hlow, hhigh⟩ | hmax
  · rw [unpackMagnitude_of_zero hexp hzero, hexp, hzero, Nat.zero_mul, units_zero, units_zero]
  · rw [unpackMagnitude_of_denormal hexp hlow hhigh, units_of_leading_bit (by omega) (by decide) hlow hhigh, hexp,
      Nat.zero_mul, Nat.zero_add, units_of_lt lsb16 hman, lsb16_eq, lsb32_eq]
  · rw [unpackMagnitude_of_normal hlow hhigh]
    exact units_widen_normal (p := 10) (d := 13) hlow (by omega) hman (by rw [lsb16_eq, lsb32_eq]; omega)
  · exact absurd (BitVec.eq_of_toNat_eq hmax) hfin

theorem value32_unpack32 (h : Half) : value32 (unpack32 Tables.filled h) = value16 h := by
  rw [value32_eq_valueOf, value16_eq_valueOf, sign32_unpack32, mag32_unpack32]
  by_cases hmax : exp16 h = 31#5
  · have hmax' : (exp16 h).toNat = 31 := congrArg BitVec.toNat hmax
    rw [unpackMagnitude_of_max hmax', mag16_eq_fields, hmax']
    exact valueOf_congr_of_max _ (by omega) (by omega) (by omega)
  · have hlt := unpackMagnitude_lt_of_finite hmax
    exact valueOf_congr_of_finite _ (by omega) (exp16_ne_max_iff.1 hmax) (units_unpackMagnitude hmax)

/-- The quiet bit of a NaN goes from bit 9 to bit 22. -/
theorem getLsbD_unpack32_of_max {h : Half} (hmax : (exp16 h).toNat = 31) :
    (unpack32 Tables.filled h).getLsbD 22 = h.getLsbD 9 := by
  have hbits := unpack32_filled_toNat h
  have hfields := half_toNat_fields h
  rw [unpackMagnitude_of_max hmax] at hbits
  rw [BitVec.getLsbD, BitVec.getLsbD, Nat.testBit_eq_decide_div_mod_eq, Nat.testBit_eq_decide_div_mod_eq,
    decide_eq_decide]
  omega

/-- An exponent field and a mantissa, each written as a pattern of its own. -/
theorem ofNat_or_ofNat_toNat {w p e m : Nat} (hm : m < 2 ^ p) (hlt : e * 2 ^ p + m < 2 ^ w) :
    (BitVec.ofNat w (e <<< p) ||| BitVec.ofNat w m).toNat = e * 2 ^ p + m := by
  rw [← BitVec.ofNat_or, Nat.shiftLeft_eq, ← add_eq_or_of_dvd_of_lt (Nat.dvd_mul_left _ _) hm, BitVec.toNat_ofNat,
    Nat.mod_eq_of_lt hlt]

/-- Settles O29: the value by units, and the magnitude of each class as the pattern the table's row writes. -/
theorem unpackStageByClass : Obligations.UnpackStageByClass := by
  intro h s e m bits
  have hman : m < 2 ^ 10 := (man16 h).isLt
  have hmant : m <<< 13 = m * 2 ^ 13 := Nat.shiftLeft_eq m 13
  have hinf : (BitVec.ofNat 32 (255 <<< 23) : Single) = 0x7F800000#32 := rfl
  have hnan : e = 31 → bits = s ||| 0x7F800000#32 ||| BitVec.ofNat 32 (m <<< 13) := fun hmax => by
    rw [BitVec.or_assoc, ← hinf]
    refine unpack32_filled_eq_signBit_or ?_
    rw [unpackMagnitude_of_max hmax, ofNat_or_ofNat_toNat (by omega) (by omega), hmant]
    rfl
  refine ⟨value32_unpack32 h, fun hexp hzero => ?_, fun hexp _ p hlow hhigh => ?_, fun ⟨hlow, hhigh⟩ => ?_,
    fun hmax hzero => ?_, fun hmax _ => ⟨hnan hmax, ?_⟩⟩
  · have hmag : unpackMagnitude h = 0 := unpackMagnitude_of_zero hexp hzero
    rw [← BitVec.or_zero (x := s)]
    exact unpack32_filled_eq_signBit_or hmag.symm
  · have hp : p ≤ 9 := leading_bit_le_nine (by omega) hlow
    rw [BitVec.or_assoc]
    refine unpack32_filled_eq_signBit_or ?_
    rw [unpackMagnitude_of_denormal hexp hlow hhigh, show 0x7FFFFF = 2 ^ 23 - 1 from rfl,
      Nat.and_two_pow_sub_one_eq_mod, ofNat_or_ofNat_toNat (Nat.mod_lt _ (by decide)) (by omega), Nat.shiftLeft_eq]
    rfl
  · rw [BitVec.or_assoc]
    refine unpack32_filled_eq_signBit_or ?_
    rw [unpackMagnitude_of_normal hlow hhigh, ofNat_or_ofNat_toNat (by omega) (by omega), hmant]
    rfl
  · rw [hnan hmax, hzero]
    exact BitVec.or_zero
  · exact getLsbD_unpack32_of_max hmax

/-! ### The smallest magnitudes (spec 42 R134) -/

theorem class32_ne_denormal_of_mag {b : Single} (hb : mag32 b = 0 ∨ 2 ^ 23 ≤ mag32 b) : class32 b ≠ .denormal := by
  have hman := (man32 b).isLt
  rw [mag32_eq_fields] at hb
  unfold class32
  split_ifs with hexp hzero
  · decide
  · have hpos : (man32 b).toNat ≠ 0 := fun h0 => hzero (BitVec.eq_of_toNat_eq h0)
    rw [hexp, BitVec.toNat_zero] at hb
    omega
  all_goals decide

/-- A nonzero half has no smaller UNPACK32 than the half 0x0001 has. -/
theorem unpackMagnitude_eq_zero_or_ge (h : Half) : unpackMagnitude h = 0 ∨ 103 * 2 ^ 23 ≤ unpackMagnitude h := by
  rcases half_cases h with ⟨hexp, hzero⟩ | ⟨hexp, p, -, hlow, hhigh⟩ | ⟨hlow, hhigh⟩ | hmax
  · exact .inl (unpackMagnitude_of_zero hexp hzero)
  · rw [unpackMagnitude_of_denormal hexp hlow hhigh]; omega
  · rw [unpackMagnitude_of_normal hlow hhigh]; omega
  · rw [unpackMagnitude_of_max hmax]; omega

theorem unpack32_smallest : unpack32 Tables.filled 0x0001#16 = 0x33800000#32 := by
  have hmag : unpackMagnitude 0x0001#16 = 0x33800000 :=
    unpackMagnitude_of_denormal (h := 0x0001#16) (p := 0) rfl (by decide) (by decide)
  exact unpack32_filled_eq_signBit_or (h := 0x0001#16) (m := 0x33800000#32) hmag.symm

theorem finiteMag32_smallest : finiteMag32 0x33800000#32 = (2 : ℚ) ^ (-24 : ℤ) := by
  have hexp : exp32 0x33800000#32 = 103#8 := by decide
  have hman : man32 0x33800000#32 = 0#23 := by decide
  simp [finiteMag32, hexp, hman]

/-- Settles O30: a nonzero magnitude of UNPACK32 is at least the one of 0x33800000, a normal. -/
theorem unpackStageGivesNoSubnormal : Obligations.UnpackStageGivesNoSubnormal := by
  refine ⟨fun h => ⟨class32_ne_denormal_of_mag ?_, fun _ hne => ?_⟩, unpack32_smallest, by decide,
    finiteMag32_smallest⟩
  · have := unpackMagnitude_eq_zero_or_ge h
    rw [mag32_unpack32]
    omega
  · rw [finiteMag32_eq_units, mag32_unpack32] at hne
    rw [← finiteMag32_smallest, finiteMag32_eq_units, finiteMag32_eq_units, mag32_unpack32, unit_mul_le_iff,
      units_le_units]
    refine (unpackMagnitude_eq_zero_or_ge h).resolve_left fun hzero => hne ?_
    rw [hzero, units_zero, Nat.cast_zero, zero_mul]

/-! ### WIDEN, one equation per case (spec 42 R135) -/

@[simp] theorem sign64_double64 (s : BitVec 1) (e : BitVec 11) (f : BitVec 52) : sign64 (double64 s e f) = s := by
  refine BitVec.eq_of_toNat_eq ?_
  have := e.isLt
  have := f.isLt
  rw [sign64_toNat, double64_toNat]
  omega

@[simp] theorem exp64_double64 (s : BitVec 1) (e : BitVec 11) (f : BitVec 52) : exp64 (double64 s e f) = e := by
  refine BitVec.eq_of_toNat_eq ?_
  have := e.isLt
  have := f.isLt
  rw [exp64_toNat, double64_toNat]
  omega

@[simp] theorem frac64_double64 (s : BitVec 1) (e : BitVec 11) (f : BitVec 52) : frac64 (double64 s e f) = f := by
  refine BitVec.eq_of_toNat_eq ?_
  have := f.isLt
  rw [frac64_toNat, double64_toNat]
  omega

@[simp] theorem mag64_double64 (s : BitVec 1) (e : BitVec 11) (f : BitVec 52) :
    mag64 (double64 s e f) = e.toNat * 2 ^ 52 + f.toNat := by
  rw [mag64_eq_fields, exp64_double64, frac64_double64]

/-- The mantissa bits as they stand in the fraction. -/
theorem shiftedMantissa_toNat (m : BitVec 23) : (m.setWidth 52 <<< 29 : BitVec 52).toNat = m.toNat * 2 ^ 29 := by
  have := m.isLt
  rw [BitVec.toNat_shiftLeft, BitVec.toNat_setWidth_of_le (by decide), Nat.shiftLeft_eq]
  omega

/-- What WIDEN sets in the fraction of a NaN: bit 51 under P_NAN_QUIET. -/
def quietBit (c : Config) : Nat := if c.nanQuiet then 2 ^ 51 else 0

theorem quietBit_of_quiet {c : Config} (hq : c.nanQuiet = true) : quietBit c = 2 ^ 51 := if_pos hq

theorem quietBit_of_not_quiet {c : Config} (hq : c.nanQuiet = false) : quietBit c = 0 := by simp [quietBit, hq]

theorem ofNat_quietBit (c : Config) (w : Nat) :
    BitVec.ofNat w (quietBit c) = if c.nanQuiet then 1#w <<< 51 else 0#w := by
  unfold quietBit
  split_ifs
  · rw [← BitVec.twoPow_eq]
    exact BitVec.eq_of_toNat_eq (by rw [BitVec.toNat_ofNat, BitVec.toNat_twoPow])
  · rfl

@[simp] theorem sign64_widen (c : Config) (b : Single) : sign64 (widen c b) = sign32 b := by
  simp only [widen]
  split_ifs <;> exact sign64_double64 _ _ _

section
variable (c : Config) {b : Single}

theorem widen_of_infinity (hexp : (exp32 b).toNat = 255) (hman : (man32 b).toNat = 0) :
    widen c b = double64 (sign32 b) 2047#11 0#52 := by
  have hexp' : exp32 b = 255#8 := BitVec.eq_of_toNat_eq hexp
  have hman' : man32 b = 0#23 := BitVec.eq_of_toNat_eq hman
  simp only [widen, if_pos hexp', if_pos hman']

theorem widen_of_nan (hexp : (exp32 b).toNat = 255) (hman : (man32 b).toNat ≠ 0) :
    widen c b = double64 (sign32 b) 2047#11 ((man32 b).setWidth 52 <<< 29 ||| BitVec.ofNat 52 (quietBit c)) := by
  have hexp' : exp32 b = 255#8 := BitVec.eq_of_toNat_eq hexp
  have hman' : man32 b ≠ 0#23 := fun h0 => hman (by rw [h0]; rfl)
  simp only [widen, if_pos hexp', if_neg hman', ofNat_quietBit]

theorem widen_of_zero (hexp : (exp32 b).toNat = 0) (hman : (man32 b).toNat = 0) :
    widen c b = double64 (sign32 b) 0#11 0#52 := by
  have hexp' : exp32 b = 0#8 := BitVec.eq_of_toNat_eq hexp
  have hman' : man32 b = 0#23 := BitVec.eq_of_toNat_eq hman
  simp [widen, hexp', hman']

theorem widen_of_subnormal {p : Nat} (hexp : (exp32 b).toNat = 0) (hlow : 2 ^ p ≤ (man32 b).toNat)
    (hhigh : (man32 b).toNat < 2 ^ (p + 1)) : widen c b = double64 (sign32 b) (BitVec.ofNat 11 (p + 874))
      (BitVec.ofNat 52 ((man32 b).toNat * 2 ^ (52 - p))) := by
  have hexp' : exp32 b = 0#8 := BitVec.eq_of_toNat_eq hexp
  have hpos : (man32 b).toNat ≠ 0 := Nat.ne_of_gt (Nat.one_le_two_pow.trans hlow)
  have hman' : man32 b ≠ 0#23 := fun h0 => hpos (by rw [h0]; rfl)
  have hlog : (man32 b).toNat.log2 = p := (Nat.log2_eq_iff hpos).2 ⟨hlow, hhigh⟩
  simp [widen, hexp', hman', hlog, Nat.shiftLeft_eq]

theorem widen_of_normal (hlow : 1 ≤ (exp32 b).toNat) (hhigh : (exp32 b).toNat ≤ 254) :
    widen c b = double64 (sign32 b) (BitVec.ofNat 11 ((exp32 b).toNat + 896)) ((man32 b).setWidth 52 <<< 29) := by
  have hmax : exp32 b ≠ 255#8 := fun h => by simp [h] at hhigh
  have hzero : exp32 b ≠ 0#8 := fun h => by simp [h] at hlow
  simp only [widen, if_neg hmax, if_neg hzero]

/-! ### WIDEN's magnitude -/

theorem mag64_widen_of_infinity (hexp : (exp32 b).toNat = 255) (hman : (man32 b).toNat = 0) :
    mag64 (widen c b) = 2047 * 2 ^ 52 := by
  rw [widen_of_infinity c hexp hman, mag64_double64]
  rfl

theorem frac64_widen_of_nan (hexp : (exp32 b).toNat = 255) (hman : (man32 b).toNat ≠ 0) :
    (frac64 (widen c b)).toNat = (man32 b).toNat * 2 ^ 29 ||| quietBit c := by
  have hquiet : quietBit c < 2 ^ 52 := by unfold quietBit; split <;> decide
  rw [widen_of_nan c hexp hman, frac64_double64, BitVec.toNat_or, shiftedMantissa_toNat, BitVec.toNat_ofNat,
    Nat.mod_eq_of_lt hquiet]

theorem mag64_widen_of_nan (hexp : (exp32 b).toNat = 255) (hman : (man32 b).toNat ≠ 0) :
    mag64 (widen c b) = 2047 * 2 ^ 52 + ((man32 b).toNat * 2 ^ 29 ||| quietBit c) := by
  rw [mag64_eq_fields, frac64_widen_of_nan c hexp hman, widen_of_nan c hexp hman, exp64_double64]
  rfl

theorem mag64_widen_of_zero (hexp : (exp32 b).toNat = 0) (hman : (man32 b).toNat = 0) : mag64 (widen c b) = 0 := by
  rw [widen_of_zero c hexp hman, mag64_double64]
  rfl

theorem mag64_widen_of_subnormal {p : Nat} (hexp : (exp32 b).toNat = 0) (hp : p ≤ 22)
    (hlow : 2 ^ p ≤ (man32 b).toNat) (hhigh : (man32 b).toNat < 2 ^ (p + 1)) :
    mag64 (widen c b) = (p + 874) * 2 ^ 52 + (man32 b).toNat * 2 ^ (52 - p) % 2 ^ 52 := by
  rw [widen_of_subnormal c hexp hlow hhigh, mag64_double64, BitVec.toNat_ofNat, BitVec.toNat_ofNat,
    Nat.mod_eq_of_lt (by omega : p + 874 < 2 ^ 11)]

theorem mag64_widen_of_normal (hlow : 1 ≤ (exp32 b).toNat) (hhigh : (exp32 b).toNat ≤ 254) :
    mag64 (widen c b) = ((exp32 b).toNat + 896) * 2 ^ 52 + (man32 b).toNat * 2 ^ 29 := by
  rw [widen_of_normal c hlow hhigh, mag64_double64, shiftedMantissa_toNat, BitVec.toNat_ofNat,
    Nat.mod_eq_of_lt (by omega : (exp32 b).toNat + 896 < 2 ^ 11)]

end

/-! ### WIDEN as a pattern under the sign bit -/

theorem signBit64_toNat (s : BitVec 1) : (s.setWidth 64 <<< 63 : Double).toNat = s.toNat * 2 ^ 63 := by
  revert s; decide

theorem double_toNat_eq (x : Double) : x.toNat = (sign64 x).toNat * 2 ^ 63 + mag64 x := by
  rw [sign64_toNat, mag64]; omega

theorem eq_signBit64_or {x m : Double} (hm : m.toNat = mag64 x) : x = (sign64 x).setWidth 64 <<< 63 ||| m := by
  have hlt : m.toNat < 2 ^ 63 := hm ▸ Nat.mod_lt _ (by decide)
  refine BitVec.eq_of_toNat_eq ?_
  rw [toNat_or_of_dvd_of_lt 63 (signBit64_toNat _ ▸ Nat.dvd_mul_left _ _) hlt, signBit64_toNat, double_toNat_eq, hm]

/-- WIDEN of a magnitude, written as a pattern under the sign bit. -/
theorem widen_eq_signBit_or {c : Config} {b : Single} {m : Double} (hm : m.toNat = mag64 (widen c b)) :
    widen c b = (sign32 b).setWidth 64 <<< 63 ||| m := by
  rw [← sign64_widen c b]
  exact eq_signBit64_or hm

theorem leading_bit_le_22 {m p : Nat} (hm : m < 2 ^ 23) (hlow : 2 ^ p ≤ m) : p ≤ 22 :=
  Nat.le_of_lt_succ ((Nat.pow_lt_pow_iff_right (by decide : 1 < 2)).1 (hlow.trans_lt hm))

/-- Settles O36: the magnitude of each case, as the pattern R135 writes. -/
theorem widenByCase : Obligations.WidenByCase := by
  intro c b s e m
  have hman : m < 2 ^ 23 := (man32 b).isLt
  have hmax : (0x7FF#64 <<< 52 : Double) = BitVec.ofNat 64 (2047 <<< 52) := rfl
  refine ⟨fun hexp hzero => widen_eq_signBit_or ?_, fun hexp hpos => ?_, fun hexp hzero => ?_,
    fun hexp _ p hlow hhigh => ?_, fun ⟨hlow, hhigh⟩ => ?_⟩
  · rw [mag64_widen_of_infinity c hexp hzero]
    rfl
  · have hquiet : m <<< 29 ||| quietBit c < 2 ^ 52 := by
      refine Nat.or_lt_two_pow ?_ ?_
      · rw [Nat.shiftLeft_eq]; omega
      · unfold quietBit; split <;> decide
    rw [BitVec.or_assoc, BitVec.or_assoc, ← ofNat_quietBit, ← BitVec.ofNat_or, hmax]
    refine widen_eq_signBit_or ?_
    rw [mag64_widen_of_nan c hexp hpos, ofNat_or_ofNat_toNat hquiet (by omega), Nat.shiftLeft_eq]
    rfl
  · rw [← BitVec.or_zero (x := s)]
    exact widen_eq_signBit_or (mag64_widen_of_zero c hexp hzero).symm
  · have hp := leading_bit_le_22 hman hlow
    rw [BitVec.or_assoc]
    refine widen_eq_signBit_or ?_
    rw [mag64_widen_of_subnormal c hexp hp hlow hhigh, ofNat_or_ofNat_toNat (Nat.mod_lt _ (by decide)) (by omega),
      Nat.shiftLeft_eq]
    rfl
  · have hshift : m <<< 29 = m * 2 ^ 29 := Nat.shiftLeft_eq m 29
    rw [BitVec.or_assoc]
    refine widen_eq_signBit_or ?_
    rw [mag64_widen_of_normal c hlow hhigh, ofNat_or_ofNat_toNat (by omega) (by omega), hshift]
    rfl

/-! ### WIDEN is exact (spec 42 R135) -/

/-- The finite classes of a binary32 pattern: zero, subnormal with its leading bit, and normal. -/
theorem single_finite_cases {b : Single} (hfin : exp32 b ≠ 255#8) :
    ((exp32 b).toNat = 0 ∧ (man32 b).toNat = 0) ∨
      ((exp32 b).toNat = 0 ∧ ∃ p ≤ 22, 2 ^ p ≤ (man32 b).toNat ∧ (man32 b).toNat < 2 ^ (p + 1)) ∨
      (1 ≤ (exp32 b).toNat ∧ (exp32 b).toNat ≤ 254) := by
  have hexp := exp32_lt b
  have hne : (exp32 b).toNat ≠ 255 := fun hmax => hfin (BitVec.eq_of_toNat_eq hmax)
  rcases (by omega : ((exp32 b).toNat = 0 ∧ 0 < (man32 b).toNat) ∨ ((exp32 b).toNat = 0 ∧ (man32 b).toNat = 0) ∨
      (1 ≤ (exp32 b).toNat ∧ (exp32 b).toNat ≤ 254)) with ⟨hzero, hpos⟩ | hzero | hrest
  · have hlow : 2 ^ (man32 b).toNat.log2 ≤ (man32 b).toNat := Nat.log2_self_le hpos.ne'
    exact .inr (.inl ⟨hzero, _, leading_bit_le_22 (man32 b).isLt hlow, hlow, Nat.lt_log2_self⟩)
  · exact .inl hzero
  · exact .inr (.inr hrest)

section
variable (c : Config) {b : Single}

theorem mag64_widen_lt_of_finite (hfin : exp32 b ≠ 255#8) : mag64 (widen c b) < 1151 * 2 ^ 52 := by
  have hman := (man32 b).isLt
  rcases single_finite_cases hfin with ⟨hexp, hzero⟩ | ⟨hexp, p, hp, hlow, hhigh⟩ | ⟨hlow, hhigh⟩
  · rw [mag64_widen_of_zero c hexp hzero]; decide
  · rw [mag64_widen_of_subnormal c hexp hp hlow hhigh]; omega
  · rw [mag64_widen_of_normal c hlow hhigh]; omega

/-- A finite binary32 pattern and its WIDEN are as many units. -/
theorem units_mag64_widen (hfin : exp32 b ≠ 255#8) :
    units 52 0 (mag64 (widen c b)) = units 23 lsb32 (mag32 b) := by
  have hman := (man32 b).isLt
  rw [mag32_eq_fields]
  rcases single_finite_cases hfin with ⟨hexp, hzero⟩ | ⟨hexp, p, hp, hlow, hhigh⟩ | ⟨hlow, hhigh⟩
  · rw [mag64_widen_of_zero c hexp hzero, hexp, hzero, Nat.zero_mul, units_zero, units_zero]
  · rw [mag64_widen_of_subnormal c hexp hp hlow hhigh, units_of_leading_bit (by omega) (by decide) hlow hhigh, hexp,
      Nat.zero_mul, Nat.zero_add, units_of_lt lsb32 hman, lsb32_eq]
  · rw [mag64_widen_of_normal c hlow hhigh]
    exact units_widen_normal (p := 23) (d := 29) hlow (by omega) hman (by rw [lsb32_eq]; omega)

/-- At the largest exponent field the fraction is zero exactly where the mantissa is. -/
theorem mag64_widen_of_max (hexp : (exp32 b).toNat = 255) :
    2047 * 2 ^ 52 ≤ mag64 (widen c b) ∧ (mag64 (widen c b) = 2047 * 2 ^ 52 ↔ (man32 b).toNat = 0) := by
  by_cases hzero : (man32 b).toNat = 0
  · simp [mag64_widen_of_infinity c hexp hzero, hzero]
  · have hle : (man32 b).toNat * 2 ^ 29 ≤ (man32 b).toNat * 2 ^ 29 ||| quietBit c := Nat.left_le_or
    rw [mag64_widen_of_nan c hexp hzero]
    omega

theorem value64_widen (b : Single) : value64 (widen c b) = value32 b := by
  rw [value64_eq_valueOf, value32_eq_valueOf, sign64_widen]
  by_cases hmax : exp32 b = 255#8
  · obtain ⟨hle, hinf⟩ := mag64_widen_of_max c (congrArg BitVec.toNat hmax)
    have hmag := mag32_eq_fields b
    rw [hmax, BitVec.toNat_ofNat] at hmag
    exact valueOf_congr_of_max _ hle (by omega) (hinf.trans (by omega))
  · have hlt := mag64_widen_lt_of_finite c hmax
    exact valueOf_congr_of_finite _ (by omega) (exp32_ne_max_iff.1 hmax) (units_mag64_widen c hmax)

end

/-- Settles O37: finite patterns by units, the others by their fraction. -/
theorem widenIsExact : Obligations.WidenIsExact := fun c b => ⟨value64_widen c b, sign64_widen c b⟩

/-! ### UNPACK is exact (spec 42 R130, R133, R135) -/

theorem value64_unpackFunction (c : Config) (h : Half) : value64 (unpackFunction c Tables.filled h) = value16 h := by
  rw [unpackFunction, value64_widen, value32_unpack32]

@[simp] theorem sign64_unpackFunction (c : Config) (h : Half) :
    sign64 (unpackFunction c Tables.filled h) = sign16 h := by
  rw [unpackFunction, sign64_widen, sign32_unpack32]

/-- Settles O41: both stages are exact. -/
theorem unpackIsExact : Obligations.UnpackIsExact := fun c h =>
  ⟨value64_unpackFunction c h, sign64_unpackFunction c h⟩

/-! ### Narrowing and truncating what is exact -/

/-- NARROW of what is a binary32 magnitude rounds nothing away, under either rounding. -/
theorem NarrowsTo.eq_of_units {c : Config} {t n : Nat} (h : NarrowsTo c (units 23 lsb32 t) n) (ht : t < 0x7F800000) :
    n = t := by
  rcases h with ⟨hover, -⟩ | ⟨t', -, hfloor, hn⟩
  · exact absurd (units_le_units.1 hover) (Nat.not_le.2 ht)
  · obtain rfl : t' = t := le_antisymm (units_le_units.1 hfloor.1) (hfloor.units_le_iff.1 le_rfl)
    have hsucc := hfloor.2
    rwa [if_neg (by omega)] at hn

/-- Truncating what is a binary16 magnitude cuts nothing off. -/
theorem TruncatesTo16.eq_of_units {g k : Nat} (h : TruncatesTo16 (units 10 lsb16 g) k) (hg : g < 0x7C00) : k = g := by
  rcases h with ⟨hover, -⟩ | ⟨-, hfloor⟩
  · exact absurd (units_le_units.1 hover) (Nat.not_le.2 hg)
  · exact le_antisymm (units_le_units.1 hfloor.1) (hfloor.units_le_iff.1 le_rfl)

theorem half_ext {h g : Half} (hsign : sign16 h = sign16 g) (hmag : mag16 h = mag16 g) : h = g :=
  BitVec.eq_of_toNat_eq (by rw [half_toNat_eq, half_toNat_eq, hsign, hmag])

theorem single_ext {b a : Single} (hsign : sign32 b = sign32 a) (hmag : mag32 b = mag32 a) : b = a := by
  refine BitVec.eq_of_toNat_eq ?_
  rw [single_toNat_fields b, single_toNat_fields a, hsign, Nat.add_assoc, Nat.add_assoc, ← mag32_eq_fields,
    ← mag32_eq_fields, hmag]

/-! ### PACK32 of UNPACK32 -/

theorem unpack32_fields_of_max {h : Half} (hmax : exp16 h = 31#5) : exp32 (unpack32 Tables.filled h) = 255#8 ∧
    (man32 (unpack32 Tables.filled h)).toNat = (man16 h).toNat * 2 ^ 13 := by
  have hman := (man16 h).isLt
  refine (fields_of_max (s := sign16 h) ?_ (by omega)).2
  rw [unpack32_filled_toNat, unpackMagnitude_of_max (congrArg BitVec.toNat hmax)]
  omega

/-- PACK32 gives back every half, a NaN too. -/
theorem pack32_unpack32 (h : Half) : pack32 Tables.filled (unpack32 Tables.filled h) = h := by
  refine half_ext (by rw [sign16_pack32, sign32_unpack32]) ?_
  rw [mag16_pack32]
  by_cases hmax : exp16 h = 31#5
  · obtain ⟨hexp, hman⟩ := unpack32_fields_of_max hmax
    rw [packMagnitude_of_max (congrArg BitVec.toNat hexp), hman, Nat.mul_div_cancel _ (Nat.two_pow_pos 13),
      mag16_eq_fields, hmax]
    rfl
  · have hlt := unpackMagnitude_lt_of_finite hmax
    have htrunc := truncatesTo16_packMagnitude (b := unpack32 Tables.filled h) (by rw [mag32_unpack32]; omega)
    rw [mag32_unpack32, units_unpackMagnitude hmax] at htrunc
    exact htrunc.eq_of_units (exp16_ne_max_iff.1 hmax)

/-! ### Classes by value -/

theorem valueOf_eq_nan_iff {p s inf k : Nat} {sign : BitVec 1} : valueOf p s inf sign k = .nan ↔ inf < k := by
  unfold valueOf
  split_ifs with hnan hinf <;> simp [hnan]

theorem value16_eq_nan_iff {h : Half} : value16 h = .nan ↔ (class16 h).isNan = true := by
  rw [value16_eq_valueOf, valueOf_eq_nan_iff, class16_isNan_iff_mag]

theorem value32_eq_nan_iff {b : Single} : value32 b = .nan ↔ (class32 b).isNan = true := by
  rw [value32_eq_valueOf, valueOf_eq_nan_iff, class32_isNan_iff_mag]

theorem value64_eq_nan_iff {x : Double} : value64 x = .nan ↔ (class64 x).isNan = true := by
  unfold value64
  split_ifs with hnan hinf <;> simp [hnan]

theorem class32_unpack32_isNan_iff {h : Half} :
    (class32 (unpack32 Tables.filled h)).isNan = true ↔ (class16 h).isNan = true := by
  rw [← value32_eq_nan_iff, value32_unpack32, value16_eq_nan_iff]

theorem class64_widen_isNan_iff {c : Config} {b : Single} :
    (class64 (widen c b)).isNan = true ↔ (class32 b).isNan = true := by
  rw [← value64_eq_nan_iff, value64_widen, value32_eq_nan_iff]

theorem class64_unpackFunction_isNan_iff {c : Config} {h : Half} :
    (class64 (unpackFunction c Tables.filled h)).isNan = true ↔ (class16 h).isNan = true := by
  rw [unpackFunction, class64_widen_isNan_iff, class32_unpack32_isNan_iff]

theorem class64_eq_infinity_of_value {x : Double} {negative : Bool} (hx : value64 x = .infinite negative) :
    class64 x = .infinity := by
  unfold value64 at hx
  split_ifs at hx with hnan hinf
  exact hinf

theorem class64_unpackFunction_of_infinity (c : Config) {h : Half} (hinf : class16 h = .infinity) :
    class64 (unpackFunction c Tables.filled h) = .infinity := by
  refine class64_eq_infinity_of_value (negative := sign16 h == 1#1) ?_
  rw [value64_unpackFunction]
  simp [value16, hinf, FpClass.isNan]

/-! ### Setting a quiet bit -/

/-- Setting bit `k` of a number that has no bit above it. -/
theorem or_two_pow_of_lt {n k : Nat} (hn : n < 2 ^ (k + 1)) : n ||| 2 ^ k = 2 ^ k + n % 2 ^ k := by
  rcases Nat.lt_or_ge n (2 ^ k) with hlt | hge
  · rw [Nat.or_two_pow_eq_add_of_lt hlt, Nat.mod_eq_of_lt hlt, Nat.add_comm]
  · have hrest : n - 2 ^ k < 2 ^ k := by rw [pow_succ] at hn; omega
    have hmod : n = 2 ^ k + n % 2 ^ k := by
      rw [Nat.mod_eq_sub_mod hge, Nat.mod_eq_of_lt hrest, Nat.add_sub_cancel' hge]
    have hor : 2 ^ k ||| n % 2 ^ k = n := by
      rw [← add_eq_or_of_dvd_of_lt dvd_rfl (Nat.mod_lt _ (Nat.two_pow_pos k)), ← hmod]
    rw [← hmod, Nat.or_comm]
    conv_lhs => rw [← hor, ← Nat.or_assoc, Nat.or_self, hor]

/-- Bit 9 is the highest of a half's mantissa. -/
theorem or_quietBit_toNat (h : Half) :
    (h ||| 0x0200#16).toNat = h.toNat / 2 ^ 10 * 2 ^ 10 + (2 ^ 9 + h.toNat % 2 ^ 10 % 2 ^ 9) := by
  have hlow : h.toNat % 2 ^ 10 < 2 ^ 10 := Nat.mod_lt _ (by decide)
  have hdvd : 2 ^ 10 ∣ h.toNat / 2 ^ 10 * 2 ^ 10 := Nat.dvd_mul_left _ _
  have hsplit : h.toNat = h.toNat / 2 ^ 10 * 2 ^ 10 ||| h.toNat % 2 ^ 10 := by
    rw [← add_eq_or_of_dvd_of_lt hdvd hlow, Nat.div_add_mod']
  rw [BitVec.toNat_or, show (0x0200#16).toNat = 2 ^ 9 from rfl]
  conv_lhs => rw [hsplit]
  rw [Nat.or_assoc, or_two_pow_of_lt hlow, ← add_eq_or_of_dvd_of_lt hdvd (by omega)]

/-! ### NARROW of WIDEN -/

section
variable {c : Config} {b : Single}

/-- The round trip sets the quiet bit of a NaN and keeps the rest of its mantissa. -/
theorem narrow_widen_fields_of_quieted_nan (hq : c.nanQuiet = true) (hnan : (class32 b).isNan = true) :
    exp32 (narrow c (widen c b)) = 255#8 ∧
      (man32 (narrow c (widen c b))).toNat = 2 ^ 22 + (man32 b).toNat % 2 ^ 22 := by
  obtain ⟨hexp, hman⟩ := class32_isNan_iff.1 hnan
  have hpos : (man32 b).toNat ≠ 0 := fun h0 => hman (BitVec.eq_of_toNat_eq h0)
  have hlt := (man32 b).isLt
  have hfrac := frac64_widen_of_nan c (congrArg BitVec.toNat hexp) hpos
  rw [quietBit_of_quiet hq, or_two_pow_of_lt (by omega)] at hfrac
  obtain ⟨-, hexp', hman'⟩ := narrow_fields_of_quieted_nan hq (class64_widen_isNan_iff.2 hnan)
  exact ⟨hexp', by omega⟩

theorem narrow_widen_of_kept_nan (hq : c.nanQuiet = false) (hnan : (class32 b).isNan = true) :
    narrow c (widen c b) = b := by
  obtain ⟨hexp, hman⟩ := class32_isNan_iff.1 hnan
  have hpos : (man32 b).toNat ≠ 0 := fun h0 => hman (BitVec.eq_of_toNat_eq h0)
  have hlt := (man32 b).isLt
  have hfrac := frac64_widen_of_nan c (congrArg BitVec.toNat hexp) hpos
  rw [quietBit_of_not_quiet hq, Nat.or_zero] at hfrac
  have hkept : ((frac64 (widen c b)).extractLsb' 29 23).toNat = (man32 b).toNat := by
    rw [extractLsb'_toNat_div, hfrac]
    omega
  obtain ⟨hsign', hexp', hman'⟩ := narrow_fields_of_kept_nan hq (class64_widen_isNan_iff.2 hnan)
    fun h0 => hpos (by rw [← hkept, h0]; rfl)
  refine single_ext (by rw [hsign', sign64_widen]) ?_
  rw [mag32_eq_fields, mag32_eq_fields, hexp', hman', hkept, hexp]

theorem narrow_widen_of_not_nan (hnan : ¬ (class32 b).isNan = true) : narrow c (widen c b) = b := by
  refine single_ext (by rw [sign32_narrow, sign64_widen]) ?_
  rw [class32_isNan_iff_mag, Nat.not_lt] at hnan
  rcases Nat.lt_or_eq_of_le hnan with hfin | hinf
  · have hexp := exp32_ne_max_iff.2 hfin
    have hlt := mag64_widen_lt_of_finite c hexp
    have hnarrow := narrowsTo_mag32_narrow c (exp64_ne_max_iff.2 (by omega : mag64 (widen c b) < 0x7FF0000000000000))
    rw [units_mag64_widen c hexp] at hnarrow
    exact hnarrow.eq_of_units hfin
  · obtain ⟨hexp, hman⟩ := class32_eq_infinity_iff.1 (class32_eq_infinity_iff_mag.2 hinf)
    have hexp' := congrArg BitVec.toNat hexp
    have hman' := congrArg BitVec.toNat hman
    rw [mag32_narrow_of_infinity c _ (mag64_widen_of_infinity c hexp' hman').le, hinf]
    rw [widen_of_infinity c hexp' hman', exp64_double64]

/-- NARROW undoes WIDEN, but for the quiet bit of a NaN under P_NAN_QUIET. -/
theorem narrow_widen (hquiet : (class32 b).isNan = true → c.nanQuiet = true → 2 ^ 22 ≤ (man32 b).toNat) :
    narrow c (widen c b) = b := by
  by_cases hnan : (class32 b).isNan = true
  · cases hq : c.nanQuiet with
    | false => exact narrow_widen_of_kept_nan hq hnan
    | true =>
      have hlt := (man32 b).isLt
      have hbit := hquiet hnan hq
      obtain ⟨hexp, hman⟩ := narrow_widen_fields_of_quieted_nan hq hnan
      refine single_ext (by rw [sign32_narrow, sign64_widen]) ?_
      rw [mag32_eq_fields, mag32_eq_fields, hexp, (class32_isNan_iff.1 hnan).1]
      omega
  · exact narrow_widen_of_not_nan hnan

end

/-! ### The round trip (spec 42 R137) -/

theorem class16_eq_signallingNan_iff {h : Half} :
    class16 h = .signallingNan ↔ exp16 h = 31#5 ∧ 1 ≤ (man16 h).toNat ∧ (man16 h).toNat ≤ 511 := by
  have hman := (man16 h).isLt
  have hbit : (man16 h).getLsbD 9 = decide (512 ≤ (man16 h).toNat) := by
    rw [BitVec.getLsbD, Nat.testBit_eq_decide_div_mod_eq, decide_eq_decide]
    omega
  have hzero : man16 h = 0#10 ↔ (man16 h).toNat = 0 := BitVec.toNat_inj.symm
  unfold class16
  rw [hbit]
  simp only [hzero]
  split_ifs with h0 _ hmax hman0 hquiet <;> simp_all <;> omega

/-- A half comes back where no quiet bit is set that it does not have. -/
theorem pack_unpack {c : Config} {h : Half} (hquiet : c.nanQuiet = true → class16 h ≠ .signallingNan) :
    packFunction c Tables.filled (unpackFunction c Tables.filled h) = h := by
  rw [packFunction, unpackFunction, narrow_widen, pack32_unpack32]
  intro hnan hq
  obtain ⟨hexp, hman⟩ := class16_isNan_iff.1 (class32_unpack32_isNan_iff.1 hnan)
  have hpos : (man16 h).toNat ≠ 0 := fun h0 => hman (BitVec.eq_of_toNat_eq h0)
  have hbit : ¬ (1 ≤ (man16 h).toNat ∧ (man16 h).toNat ≤ 511) := fun hlow =>
    hquiet hq (class16_eq_signallingNan_iff.2 ⟨hexp, hlow⟩)
  rw [(unpack32_fields_of_max hexp).2]
  omega

theorem pack_unpack_of_quieted_nan {c : Config} {h : Half} (hq : c.nanQuiet = true) (hnan : (class16 h).isNan = true) :
    packFunction c Tables.filled (unpackFunction c Tables.filled h) = h ||| 0x0200#16 := by
  obtain ⟨hexp, -⟩ := class16_isNan_iff.1 hnan
  obtain ⟨hexp', hman'⟩ := narrow_widen_fields_of_quieted_nan hq (class32_unpack32_isNan_iff.2 hnan)
  rw [(unpack32_fields_of_max hexp).2] at hman'
  have hman := (man16 h).isLt
  have hfields := half_toNat_fields h
  rw [hexp, BitVec.toNat_ofNat] at hfields
  refine BitVec.eq_of_toNat_eq ?_
  rw [or_quietBit_toNat, packFunction, unpackFunction, pack32_filled_toNat_of_max hexp', hman', sign32_narrow,
    sign64_widen, sign32_unpack32]
  omega

/-- Settles O42: both stages undo each other, but for the quiet bit. -/
theorem packOfUnpackRoundTrips : Obligations.PackOfUnpackRoundTrips := by
  intro c h back
  refine ⟨fun hne => pack_unpack fun _ => hne, fun hsig hq => pack_unpack_of_quieted_nan hq (by rw [hsig]; rfl),
    fun _ hq => pack_unpack fun hq' => absurd (hq.symm.trans hq') (by decide), class16_eq_signallingNan_iff⟩

/-! ### NaN propagation (spec 42 R138) -/

/-- Settles O43: what PACK makes of a NaN, widened with its class. -/
theorem nansPropagateWhenQuieted : Obligations.NansPropagateWhenQuieted := by
  intro c x hnan
  obtain ⟨hquieted, hlost⟩ := packOfNans.2 c x hnan
  refine ⟨fun hq => ?_, fun hq htop hkept => ?_⟩
  · rw [class64_unpackFunction_isNan_iff, (hquieted hq).2]
    rfl
  · have hinf : class16 (packFunction c Tables.filled x) = .infinity := by
      rw [class16_eq_infinity_iff, hlost hq htop hkept, mag16, signBit16_or_toNat _ (by decide), BitVec.toNat_ofNat]
      omega
    exact ⟨hinf, class64_unpackFunction_of_infinity c hinf⟩

/-! ### Sign symmetry (spec 42 R139) -/

section
variable (h : Half)

theorem sign16_xor_signBit : sign16 (h ^^^ 0x8000#16) = sign16 h ^^^ 1#1 := BitVec.extractLsb'_xor
theorem exp16_xor_signBit : exp16 (h ^^^ 0x8000#16) = exp16 h := BitVec.extractLsb'_xor.trans BitVec.xor_zero
theorem man16_xor_signBit : man16 (h ^^^ 0x8000#16) = man16 h := BitVec.extractLsb'_xor.trans BitVec.xor_zero

end

section
variable (b : Single)

theorem sign32_xor_signBit : sign32 (b ^^^ 0x80000000#32) = sign32 b ^^^ 1#1 := BitVec.extractLsb'_xor
theorem exp32_xor_signBit : exp32 (b ^^^ 0x80000000#32) = exp32 b := BitVec.extractLsb'_xor.trans BitVec.xor_zero
theorem man32_xor_signBit : man32 (b ^^^ 0x80000000#32) = man32 b := BitVec.extractLsb'_xor.trans BitVec.xor_zero

end

theorem readOffset_xor_signBit (h : Half) :
    Tables.filled.readOffset (expIdxOf (h ^^^ 0x8000#16)) = Tables.filled.readOffset (expIdxOf h) := by
  rw [Tables.filled_readOffset, Tables.filled_readOffset, offsetContents_expIdxOf, offsetContents_expIdxOf,
    exp16_xor_signBit]

theorem mantIdxOf_xor_signBit (h : Half) :
    mantIdxOf Tables.filled (h ^^^ 0x8000#16) = mantIdxOf Tables.filled h := by
  rw [mantIdxOf, mantIdxOf, readOffset_xor_signBit, man16_xor_signBit]

theorem unpack32_xor_signBit (h : Half) :
    unpack32 Tables.filled (h ^^^ 0x8000#16) = unpack32 Tables.filled h ^^^ 0x80000000#32 := by
  refine single_ext ?_ ?_
  · rw [sign32_unpack32, sign16_xor_signBit, sign32_xor_signBit, sign32_unpack32]
  · rw [mag32_eq_fields (_ ^^^ _), exp32_xor_signBit, man32_xor_signBit, ← mag32_eq_fields, mag32_unpack32,
      mag32_unpack32, unpackMagnitude, unpackMagnitude, mantIdxOf_xor_signBit, exp16_xor_signBit]

theorem double64_xor_signBit (s : BitVec 1) (e : BitVec 11) (f : BitVec 52) :
    double64 (s ^^^ 1#1) e f = double64 s e f ^^^ 0x8000000000000000#64 := by
  have hzero : (0x8000000000000000#64 : Double) = 1#1 ++ 0#11 ++ 0#52 := rfl
  rw [hzero, double64, double64, BitVec.xor_append, BitVec.xor_append, BitVec.xor_zero, BitVec.xor_zero]

theorem widen_xor_signBit (c : Config) (b : Single) :
    widen c (b ^^^ 0x80000000#32) = widen c b ^^^ 0x8000000000000000#64 := by
  simp only [widen, sign32_xor_signBit, exp32_xor_signBit, man32_xor_signBit, double64_xor_signBit]
  split_ifs <;> rfl

/-- Settles O44: the sign bit goes through both stages, and EXPONENT's negative half is the positive one with it. -/
theorem unpackIsSignSymmetric : Obligations.UnpackIsSignSymmetric := by
  refine ⟨fun c h => ?_, fun h => ⟨readOffset_xor_signBit h, mantIdxOf_xor_signBit h⟩, fun i hi => ?_⟩
  · rw [unpackFunction, unpackFunction, unpack32_xor_signBit, widen_xor_signBit]
  · have hidx : (BitVec.ofNat 6 i).toNat = i := Nat.mod_eq_of_lt (by omega)
    have hidx' : (BitVec.ofNat 6 (i + 32)).toNat = i + 32 := Nat.mod_eq_of_lt (by omega)
    have hneg := exponentContents_toNat_add_32 hi
    have hlt := (exponentContents (i + 32)).isLt
    refine BitVec.eq_of_toNat_eq ?_
    rw [Tables.filled_readExponent, Tables.filled_readExponent, hidx, hidx', BitVec.toNat_add, BitVec.toNat_ofNat]
    omega

end Sys2Proof.Machine
end

section
/-! The statements of spec 70: the fill and the reset input of the INIT form, and the parameter `P_LATENCY`. -/

namespace Sys2Proof.Machine

/-! ### The fill -/

theorem State.fillStep_of_lt {s : State} (h : s.fillNext < fillLength) :
    s.fillStep = { s with tables := s.tables.fillAt s.fillNext, fillNext := s.fillNext + 1 } := if_pos h

theorem State.fillStep_of_le {s : State} (h : fillLength ≤ s.fillNext) :
    s.fillStep = { s with tablesReady := true } := if_neg (Nat.not_lt.2 h)

/-- Before `tables_ready` a safe state's step is one of the fill, whether a request is held or nothing is presented. -/
theorem step_fills_of_safe {s : State} (hs : s.Safe) (hv : s.tablesValid = false)
    (hrst : s.inputs.head? ≠ some .rst) : step s = .next s.fillStep := by
  obtain ⟨t, ht⟩ := step_next_of_acceptable hs.2
  rcases step_next_cases ht with ⟨-, rfl⟩ | ⟨_, hin, -⟩ | ⟨_, _, _, -, -, hvalid, -, -⟩ | ⟨_, _, _, -, -, -, rfl⟩
  · rw [ht, State.idle_of_not_valid hv]
  · simp [hin] at hrst
  · simp [hv] at hvalid
  · exact ht

/-- With `k` indexes left the fill takes `k + 1` steps, the last of which sets `tables_ready`. -/
theorem runSteps_fills (k : Nat) {s : State} (hk : s.fillNext + k = fillLength) (hs : s.Safe)
    (hv : s.tablesValid = false) (hrst : s.inputs.head? ≠ some .rst) :
    runSteps (k + 1) s = .next { s with tables := Tables.filled, fillNext := fillLength, tablesReady := true } := by
  induction k generalizing s with
  | zero =>
    have hstep := step_fills_of_safe hs hv hrst
    obtain ⟨hwf, -, hbelow⟩ := (State.inv_iff_of_not_valid hv).1 hs.1
    have hdone : s.fillNext = fillLength := hk
    have hfilled : s.tables = Tables.filled := Tables.eq_filled hwf (hdone ▸ hbelow)
    rw [runSteps_of_next hstep, runSteps_zero, State.fillStep_of_le hdone.ge, ← hfilled, ← hdone]
  | succ k ih =>
    have hstep := step_fills_of_safe hs hv hrst
    have hsafe : s.fillStep.Safe := step_safe hs hstep
    rw [State.fillStep_of_lt (by omega)] at hstep hsafe
    rw [runSteps_of_next hstep]
    exact ih (by dsimp only; omega) hsafe hv hrst

/-! ### P_LATENCY -/

/-- `s` with another `P_LATENCY`. -/
def State.withLatency (n : Nat) (s : State) : State := { s with cfg := { s.cfg with latency := n } }

section
variable (n : Nat) (s : State)

@[simp] theorem State.withLatency_tablesValid : (s.withLatency n).tablesValid = s.tablesValid := rfl
@[simp] theorem State.withLatency_operandUndriven (w : Nat) :
    (s.withLatency n).operandUndriven w = s.operandUndriven w := rfl

theorem State.fillStep_withLatency : (s.withLatency n).fillStep = s.fillStep.withLatency n := by
  rcases s.fillStep_cases with ⟨hlt, heq⟩ | ⟨hle, heq⟩ <;> rw [heq]
  · exact State.fillStep_of_lt hlt
  · exact State.fillStep_of_le hle

theorem State.idle_withLatency : (s.withLatency n).idle = s.idle.withLatency n := by
  rw [State.idle, State.idle, State.withLatency_tablesValid, State.fillStep_withLatency,
    apply_ite (State.withLatency n)]

theorem State.pullReset_withLatency : (s.withLatency n).pullReset = s.pullReset.withLatency n := by
  cases himpl : s.cfg.tableImpl with
  | rom => rw [State.pullReset_of_rom himpl, State.pullReset_of_rom (s := s.withLatency n) himpl]; rfl
  | init => rw [State.pullReset_of_init himpl, State.pullReset_of_init (s := s.withLatency n) himpl]; rfl

theorem completed_withLatency (i : Instr) :
    completed i (s.withLatency n) = (completed i s).withLatency n := by
  cases i <;> rfl

theorem exec_withLatency (i : Instr) :
    exec i (s.withLatency n) = mapNext (State.withLatency n) (exec i s) := by
  cases hv : s.tablesValid with
  | false =>
    rw [exec_held hv, exec_held (s := s.withLatency n) hv, State.fillStep_withLatency]
    rfl
  | true =>
    rw [exec_of_valid hv, exec_of_valid (s := s.withLatency n) hv, State.withLatency_operandUndriven,
      completed_withLatency]
    split <;> rfl

end

/-- A change of state that leaves what is presented alone commutes with the step when it does with each thing a step
can do. -/
theorem step_mapNext_of_commutes {f : State → State} {s : State} (hinputs : (f s).inputs = s.inputs)
    (hidle : (f s).idle = f s.idle) (hrst : (f s).pullReset = f s.pullReset)
    (hexec : ∀ i, exec i (f s) = mapNext f (exec i s)) : step (f s) = mapNext f (step s) := by
  rcases hin : s.inputs with _ | ⟨r | _, rest⟩ <;> rw [hin] at hinputs
  · rw [step_of_no_input hin, step_of_no_input hinputs, hidle]
    rfl
  · cases hdec : decode r.word with
    | ok i => rw [step_of_request hin hdec, step_of_request hinputs hdec, hexec]
    | error e =>
      rw [step_of_refused_word hin hdec, step_of_refused_word hinputs hdec]
      rfl
  · rw [step_of_rst hin, step_of_rst hinputs, hrst]
    rfl

/-! ### The statements -/

/-- Settles O46, by the invariant's step lemma, which takes the step apart into idling, the reset input, a completed
transaction and the fill. -/
theorem stepKeepsTheInvariant : Obligations.StepKeepsTheInvariant :=
  fun _ _ hs h => step_inv hs h

/-- Settles O10: the hold is one step of the fill, which writes an index or sets `tables_ready`. -/
theorem transactionHeldBeforeTablesReady : Obligations.TransactionHeldBeforeTablesReady := by
  intro i s himpl hready
  refine ⟨s.fillStep, exec_held (State.tablesValid_eq_false.2 ⟨himpl, hready⟩), s.fillStep_inputs,
    s.fillStep_responses, s.fillStep_ports, s.fillStep_cfg, s.fillStep_freeDraws, fun hlt => ?_,
    fun hle => State.fillStep_of_le hle⟩
  rw [State.fillStep_of_lt hlt]
  exact ⟨rfl, rfl, hready⟩

/-- Settles O50, by the length of the fill's run from the index it has come to. -/
theorem fillEndsWithTablesReady : Obligations.FillEndsWithTablesReady := by
  intro s hs himpl hready hrst
  have hv : s.tablesValid = false := State.tablesValid_eq_false.2 ⟨himpl, hready⟩
  obtain ⟨-, hnext, -⟩ := (State.inv_iff_of_not_valid hv).1 hs.1
  have hbound : fillLength - s.fillNext + 1 ≤ 2049 := Nat.succ_le_succ (Nat.sub_le fillLength s.fillNext)
  exact ⟨_, hbound, _, runSteps_fills _ (Nat.add_sub_cancel' hnext) hs hv hrst, rfl, rfl, rfl, rfl, rfl⟩

/-- Settles O54: each thing a step can do commutes with setting `P_LATENCY`. -/
theorem latencyChangesNoResult : Obligations.LatencyChangesNoResult := fun s n =>
  step_mapNext_of_commutes (f := State.withLatency n) rfl (s.idle_withLatency n) (s.pullReset_withLatency n)
    (exec_withLatency n s)

/-- Settles O52, by the reset input's equation under each form of `P_TABLE_IMPL`. -/
theorem resetInputClearsTablesReady : Obligations.ResetInputClearsTablesReady := by
  intro s rest hin
  have htail : s.inputs.tail = rest := by rw [hin, List.tail_cons]
  rw [step_of_rst hin]
  constructor
  · intro hrom
    rw [State.pullReset_of_rom hrom, htail]
  · intro hinit
    rw [State.pullReset_of_init hinit]
    exact ⟨_, rfl, rfl, rfl, rfl, rfl, htail, rfl, rfl, rfl⟩

end Sys2Proof.Machine
end
